-- ==== Sys2Proof/Config.lean ====
section
/-! DEFINITION. The implementation parameters of HUFFCORE (00_scope.md R4), the constraints a
configuration must meet (93_implementation_defined.md U11), and the one value the spec leaves
unstated, which this hardware never needs. -/

namespace Sys2Proof

/-- The parameters of the block that a build may choose (00_scope.md R4; 92_eei_decisions.md, last
paragraph: a model takes them as arguments). Every operation, meaning and step that depends on one takes
a `Config`; the host's interface sees the machine of `Config.hardware`. -/
structure Config where
  /-- `W`: bits of a frequency count and of a node weight. -/
  w : Nat
  /-- `V_IN`: bits of an input element presented to CNT and ENC. -/
  vIn : Nat
  /-- `ZERO_LEAVES`: whether BASE makes a leaf for symbols of count zero (90_conflicts.md C1). -/
  zeroLeaves : Bool
  /-- `LIST_CAP`: most entries the priority list holds. -/
  listCap : Nat
  /-- `NODE_CAP`: most tree nodes made between two list clears. -/
  nodeCap : Nat
  /-- `BITS_MAX`: most raw bits one BITS command appends. -/
  bitsMax : Nat
  deriving DecidableEq, Repr

/-- The column "this hardware" of 00_scope.md R4. -/
def Config.hardware : Config :=
  { w := 32, vIn := 24, zeroLeaves := false, listCap := 256, nodeCap := 511, bitsMax := 16 }

/-- `NSYM`, the alphabet size: not a free parameter (R4). -/
abbrev Config.nsym : Nat := 256

/-- `CODE_MAX`, the longest codeword in bits: not a free parameter (R4). -/
abbrev Config.codeMax : Nat := 255

/-- The constraints 93_implementation_defined.md U11 sets on a configuration. -/
def Config.valid (c : Config) : Bool :=
  decide (1 ≤ c.w ∧ c.w ≤ 32 ∧ 8 < c.vIn ∧ c.vIn ≤ 24 ∧ 256 ≤ c.listCap ∧ c.listCap ≤ 511 ∧ c.nodeCap = 511 ∧
    1 ≤ c.bitsMax ∧ c.bitsMax ≤ 16)

/-- A FREE VALUE (DESIGN CHOICE, log entry 9): what a leaf weighs whose 16-bit operand does not fit a
`W` below 16. The spec says `zext_W(w)` (R62), which is no extension there. -/
opaque Config.unstatedWeight : (w : Nat) → BitVec 16 → Nat

end Sys2Proof
end

