-- ==== Sys2Proof/Word.lean ====
section
/-! DEFINITION. The words of HUFFCORE: command words, bytes, symbols, weights and bit-strings
(00_scope.md R5, R6; 10_state.md R13, R14). -/

namespace Sys2Proof

/-- A command word `cmd[31:0]`, and the 32-bit data of a response (30_encoding.md R60, R70). -/
abbrev Word := BitVec 32

/-- One byte of the output stream, or the opcode byte of a command word (R25, R60). -/
abbrev Byte := BitVec 8

/-- A symbol: a byte value 0 to 255 (10_state.md R14). -/
abbrev Symbol := BitVec 8

/-- A count or a node weight, unsigned. Its type has the width `W` = 32 of this hardware, which is
also the greatest `W` that 00_scope.md R4 allows; the checks against `2^W` go through `Config.w`. -/
abbrev Weight := BitVec 32

/-- A bit-string: `true` stands for '1', `false` for '0', the first element is the leftmost
(00_scope.md R6). -/
abbrev BitString := List Bool

end Sys2Proof
end

