-- ==== Sys2Proof/Syntax.lean ====
section
/-! DEFINITION. The commands of HUFFCORE: one constructor per row of spec/opcode_table.json
(30_encoding.md R63), with the operand fields of R62, and the pseudo-instructions of R79. -/

namespace Sys2Proof

/-- The operand field `v` of CNT and ENC, 24 bits whatever `V_IN` is: an input element (R14, R61, R62). -/
abbrev InputElem := BitVec 24

/-- The operand fields `i` and `j`: an index into the priority list (R42, R62). -/
abbrev ListIndex := BitVec 12

/-- A command with its operand fields. -/
inductive Instr where
  /-- do nothing (R90) -/
  | nop
  /-- soft reset (R91) -/
  | rst
  /-- read STATUS (R92) -/
  | stat
  /-- acknowledge a fault (R93) -/
  | errack
  /-- clear the frequency table (R100) -/
  | fclr
  /-- count one input element (R101) -/
  | cnt (v : InputElem)
  /-- read one count (R102) -/
  | frd (s : Symbol)
  /-- empty the list (R115) -/
  | plclr
  /-- make the base list from FREQ (R114) -/
  | base
  /-- append one leaf (R116) -/
  | plapp (s : Symbol) (w : BitVec 16)
  /-- insert one leaf in order (R117) -/
  | plins (s : Symbol) (w : BitVec 16)
  /-- sort the list (R118) -/
  | sort
  /-- read LISTINFO (R119) -/
  | pllen
  /-- read the weight of an entry (R120) -/
  | plrdw (i : ListIndex)
  /-- read kind and representative symbol of an entry (R121) -/
  | plrdk (i : ListIndex)
  /-- compare two entries (R122) -/
  | pllt (i j : ListIndex)
  /-- one coalescing step (R143) -/
  | co1
  /-- coalesce and latch the tree (R145) -/
  | coall
  /-- from FREQ to the finished tree (R146) -/
  | build
  /-- build the code table (R161) -/
  | ctbld
  /-- read the length of a codeword (R162) -/
  | ctlen (s : Symbol)
  /-- read 32 bits of a codeword (R163) -/
  | ctrd (s : Symbol) (c : BitVec 3)
  /-- encode one input element (R176) -/
  | enc (v : InputElem)
  /-- append raw bits (R177) -/
  | bits (n : BitVec 5) (pat : BitVec 16)
  /-- byte-align the output (R178) -/
  | flush
  /-- drop the pending bits (R179) -/
  | bpclr
  deriving DecidableEq, Repr

/-- The four commands the block executes while it is halted (40_control.md, opening section;
60_exceptions.md R199). -/
def Instr.isControl : Instr → Bool
  | .nop | .rst | .stat | .errack => true
  | .fclr | .cnt _ | .frd _ | .plclr | .base | .plapp _ _ | .plins _ _ | .sort | .pllen | .plrdw _
  | .plrdk _ | .pllt _ _ | .co1 | .coall | .build | .ctbld | .ctlen _ | .ctrd _ _ | .enc _
  | .bits _ _ | .flush | .bpclr => false

/-- The pseudo-instructions of 30_encoding.md R79. A text is a list of input elements. -/
inductive Pseudo where
  | cntstr (text : List InputElem)
  | s2t (text : List InputElem)
  | encstr (text : List InputElem)
  | bitstr (bits : BitString)
  | pack (bits : BitString)
  | huff (text : List InputElem)
  deriving DecidableEq, Repr

end Sys2Proof
end

