-- ==== Sys2Proof/WellFormed.lean ====
section
/-! DEFINITION. Which command terms have a legal encoding. Every field value is legal but the count
`n` of BITS, which is at most `BITS_MAX` (30_encoding.md R62, R64). -/

namespace Sys2Proof

/-- The check on a term of `Instr` for a configuration. -/
def Instr.wfIn (cfg : Config) : Instr → Bool
  | .bits n _ => decide (n.toNat ≤ cfg.bitsMax)
  | .nop | .rst | .stat | .errack | .fclr | .cnt _ | .frd _ | .plclr | .base | .plapp _ _
  | .plins _ _ | .sort | .pllen | .plrdw _ | .plrdk _ | .pllt _ _ | .co1 | .coall | .build
  | .ctbld | .ctlen _ | .ctrd _ _ | .enc _ | .flush | .bpclr => true

/-- The check on a term of `Instr` for this hardware: `n ≤ 16` in BITS. -/
def Instr.wf (i : Instr) : Bool := i.wfIn Config.hardware

end Sys2Proof
end

