-- ==== Sys2Proof/Decode.lean ====
section
/-! DEFINITION. From command words to commands and back (30_encoding.md R60 to R66): the formats and
their reserved fields, the opcode map, the decoder, and the encoder. -/

namespace Sys2Proof

/-- The eight formats of R61. -/
inductive Format where
  | z | v | s | l | i | j | c | b
  deriving DecidableEq, Repr

/-- The bits a word of the format must have fixed: the opcode byte and the fields marked "zero" in
R61. -/
def Format.mask : Format → Word
  | .z => 0xFFFFFFFF
  | .v => 0xFF000000
  | .s => 0xFFFFFF00
  | .l => 0xFF000000
  | .i => 0xFFFFF000
  | .j => 0xFF000000
  | .c => 0xFFFFF800
  | .b => 0xFFE00000

/-- `cmd[31:24]` (R60). -/
def opField (w : Word) : Byte := w.extractLsb' 24 8

/-- Field `v`, `cmd[23:0]` (R61, format V). -/
def vField (w : Word) : InputElem := w.extractLsb' 0 24

/-- Field `s` of formats S and C, `cmd[7:0]` (R61). -/
def sField (w : Word) : Symbol := w.extractLsb' 0 8

/-- Field `s` of format L, `cmd[23:16]` (R61). -/
def leafSymbolField (w : Word) : Symbol := w.extractLsb' 16 8

/-- Field `w` of format L, `cmd[15:0]` (R61). -/
def leafWeightField (w : Word) : BitVec 16 := w.extractLsb' 0 16

/-- Field `i` of formats I and J, `cmd[11:0]` (R61). -/
def iField (w : Word) : ListIndex := w.extractLsb' 0 12

/-- Field `j` of format J, `cmd[23:12]` (R61). -/
def jField (w : Word) : ListIndex := w.extractLsb' 12 12

/-- Field `c` of format C, `cmd[10:8]` (R61). -/
def cField (w : Word) : BitVec 3 := w.extractLsb' 8 3

/-- Field `n` of format B, `cmd[20:16]` (R61). -/
def nField (w : Word) : BitVec 5 := w.extractLsb' 16 5

/-- Field `pat` of format B, `cmd[15:0]` (R61). -/
def patField (w : Word) : BitVec 16 := w.extractLsb' 0 16

/-- One row of the opcode map: the opcode byte, the format, and the command its fields make. -/
structure OpcodeRow where
  op : Byte
  format : Format
  build : Word → Instr

/-- The opcode map of R63. -/
def opcodeTable : List OpcodeRow :=
  [ ⟨0x00, .z, fun _ => .nop⟩,
    ⟨0x01, .z, fun _ => .rst⟩,
    ⟨0x02, .z, fun _ => .stat⟩,
    ⟨0x03, .z, fun _ => .errack⟩ ] ++
  [ ⟨0x10, .z, fun _ => .fclr⟩,
    ⟨0x11, .v, fun w => .cnt (vField w)⟩,
    ⟨0x12, .s, fun w => .frd (sField w)⟩ ] ++
  [ ⟨0x20, .z, fun _ => .plclr⟩,
    ⟨0x21, .z, fun _ => .base⟩,
    ⟨0x22, .l, fun w => .plapp (leafSymbolField w) (leafWeightField w)⟩,
    ⟨0x23, .l, fun w => .plins (leafSymbolField w) (leafWeightField w)⟩,
    ⟨0x24, .z, fun _ => .sort⟩,
    ⟨0x25, .z, fun _ => .pllen⟩,
    ⟨0x26, .i, fun w => .plrdw (iField w)⟩,
    ⟨0x27, .i, fun w => .plrdk (iField w)⟩,
    ⟨0x28, .j, fun w => .pllt (iField w) (jField w)⟩ ] ++
  [ ⟨0x30, .z, fun _ => .co1⟩,
    ⟨0x31, .z, fun _ => .coall⟩,
    ⟨0x32, .z, fun _ => .build⟩ ] ++
  [ ⟨0x40, .z, fun _ => .ctbld⟩,
    ⟨0x41, .s, fun w => .ctlen (sField w)⟩,
    ⟨0x42, .c, fun w => .ctrd (sField w) (cField w)⟩ ] ++
  [ ⟨0x50, .v, fun w => .enc (vField w)⟩,
    ⟨0x51, .b, fun w => .bits (nField w) (patField w)⟩,
    ⟨0x52, .z, fun _ => .flush⟩,
    ⟨0x53, .z, fun _ => .bpclr⟩ ]

/-- The row of an opcode byte, if it is assigned (R63, R65). -/
def opcodeRow (op : Byte) : Option OpcodeRow := opcodeTable.find? fun r => r.op == op

/-- The `match` value of a row: its opcode byte, all else zero (R66 and opcode_table.json). -/
def OpcodeRow.matchWord (r : OpcodeRow) : Word := r.op ++ 0#24

/-- Why a word is illegal: the three cases of R64. -/
inductive Illegal where
  /-- (a) `op` is not one of the 26 assigned values -/
  | unassignedOpcode
  /-- (b) a reserved field of the format is not all zeros -/
  | reservedFieldSet
  /-- (c) BITS with `n` greater than `BITS_MAX` -/
  | tooManyBits
  deriving DecidableEq, Repr

/-- The decoding procedure of R66, total on all words, with the reason of a refusal. -/
def decodeReason (cfg : Config) (w : Word) : Except Illegal Instr :=
  match opcodeRow (opField w) with
  | none => .error .unassignedOpcode
  | some r =>
    if w &&& r.format.mask ≠ r.matchWord then .error .reservedFieldSet
    else if (r.build w).wfIn cfg then .ok (r.build w) else .error .tooManyBits

/-- The command a word decodes to in a configuration, or `none` when the word is illegal (R66). -/
def decodeIn (cfg : Config) (w : Word) : Option Instr :=
  match decodeReason cfg w with
  | .ok i => some i
  | .error _ => none

/-- The command a word decodes to on this hardware. -/
def decode (w : Word) : Option Instr := decodeIn Config.hardware w

/-- The command word of a command: the opcode byte of R63 and the fields of R61 at their places,
zeros elsewhere. -/
def encode : Instr → Word
  | .nop => 0x00#8 ++ 0#24
  | .rst => 0x01#8 ++ 0#24
  | .stat => 0x02#8 ++ 0#24
  | .errack => 0x03#8 ++ 0#24
  | .fclr => 0x10#8 ++ 0#24
  | .cnt v => 0x11#8 ++ v
  | .frd s => 0x12#8 ++ 0#16 ++ s
  | .plclr => 0x20#8 ++ 0#24
  | .base => 0x21#8 ++ 0#24
  | .plapp s w => 0x22#8 ++ s ++ w
  | .plins s w => 0x23#8 ++ s ++ w
  | .sort => 0x24#8 ++ 0#24
  | .pllen => 0x25#8 ++ 0#24
  | .plrdw i => 0x26#8 ++ 0#12 ++ i
  | .plrdk i => 0x27#8 ++ 0#12 ++ i
  | .pllt i j => 0x28#8 ++ j ++ i
  | .co1 => 0x30#8 ++ 0#24
  | .coall => 0x31#8 ++ 0#24
  | .build => 0x32#8 ++ 0#24
  | .ctbld => 0x40#8 ++ 0#24
  | .ctlen s => 0x41#8 ++ 0#16 ++ s
  | .ctrd s c => 0x42#8 ++ 0#13 ++ c ++ s
  | .enc v => 0x50#8 ++ v
  | .bits n pat => 0x51#8 ++ 0#3 ++ n ++ pat
  | .flush => 0x52#8 ++ 0#24
  | .bpclr => 0x53#8 ++ 0#24

/-- A row's word as the opcode table numbers its bits: the low `nbits` bits of `w`, all above zero.
Every command is one 32-bit word (R60, R67). -/
def tableWord (nbits w : Nat) : Word := BitVec.ofNat 32 (w % 2 ^ nbits)

/-- What the decoder reads from the word of an opcode-table row. -/
def decodeTableWord (nbits w : Nat) : Option Instr := decode (tableWord nbits w)

end Sys2Proof
end

