-- ==== Sys2Proof/Machine/State.lean ====
section
/-! DEFINITION. The state of HUFFCORE (10_state.md R13 to R29): every piece of state the spec names,
the two traces of what left the block, and the host's events not yet taken. All of it is plain data. -/

namespace Sys2Proof.Machine

/-- A tree, the tagged union the source calls HuffmanNode (10_state.md R16). -/
inductive HuffTree where
  /-- `Leaf(weight, symbol)` -/
  | leaf (weight : Weight) (symbol : Symbol)
  /-- `Node(weight, tiebreak_symbol, left, right)` -/
  | node (weight : Weight) (tiebreak : Symbol) (left right : HuffTree)
  deriving DecidableEq, Repr

/-- The seven latched faults of 60_exceptions.md R195. -/
inductive FaultKind where
  /-- code 1: CO1 on a list of fewer than two entries (R196) -/
  | underflow
  /-- code 2: PLRDW, PLRDK or PLLT beyond the list (R197) -/
  | index
  /-- code 3: the word does not decode (R200) -/
  | illegalCommand
  /-- code 4: CNT of an entry that holds `2^W − 1` (R201) -/
  | countOverflow
  /-- code 5: CO1, COALL or BUILD would make a weight of `2^W` or more (R202) -/
  | weightOverflow
  /-- code 6: PLAPP or PLINS on a full list (R204) -/
  | listFull
  /-- code 7: PLAPP, PLINS, CO1 or COALL would pass `NODE_CAP` nodes (R203) -/
  | arenaFull
  deriving DecidableEq, Repr

/-- The response codes that are ever produced (30_encoding.md R70; 93_implementation_defined.md U6). -/
inductive RspCode where
  /-- 0: the command ended normally -/
  | ok
  /-- 1 to 7: the command ended with this fault -/
  | fault (k : FaultKind)
  /-- 8: the command was refused because FAULT is not 0 (R199) -/
  | halted
  deriving DecidableEq, Repr

/-- A response: `rsp_code` and `rsp_data` (30_encoding.md R70). -/
structure Response where
  code : RspCode
  data : Word
  deriving DecidableEq, Repr

/-- What the host does to the block (10_state.md R25, R26; 70_reset_and_hazards.md R241). -/
inductive HostEvent where
  /-- a word on the `cmd` port -/
  | command (w : Word)
  /-- a pulse of the `rst` pin between commands -/
  | resetPin
  deriving DecidableEq, Repr

/-- One entry per symbol, indexed directly by symbol value (R13, R15, R41). -/
abbrev SymTable (α : Type) := Vector α Config.nsym

/-- FREQ (R13). -/
abbrev FreqTable := SymTable Weight

/-- CT (R15): the entry is the bit-string itself. -/
abbrev CodeTable := SymTable BitString

/-- The state: the eight pieces of 10_state.md R32, then the model's records of the ports. -/
structure State where
  /-- FREQ, 256 counts of `W` bits (R13) -/
  freq : FreqTable
  /-- PL, `PL[0]` first (R21) -/
  pl : List HuffTree
  /-- TREE, the finished tree or none (R19) -/
  tree : Option HuffTree
  /-- NNODES, 9 bits (R20) -/
  nnodes : BitVec 9
  /-- CT, 256 codewords (R15) -/
  ct : CodeTable
  /-- ACC, 7 bits (R22) -/
  acc : BitVec 7
  /-- NB, 3 bits (R22) -/
  nb : BitVec 3
  /-- FAULT: `none` is 0, a kind is its code 1 to 7 (R23) -/
  fault : Option FaultKind
  /-- OUT, the trace of emitted bytes, oldest first (R28); no command reads it -/
  out : List Byte
  /-- RSP, the trace of responses, oldest first (R27); no command reads it -/
  rsp : List Response
  /-- the host's events not yet taken, oldest first (R25, R26): the model's own field -/
  input : List HostEvent
  deriving DecidableEq, Repr

/-- The reasons a step can end in the interface's `fault`. There is none: the spec's step is a total
function and its faults are next states that latch FAULT (10_state.md R32, 60_exceptions.md R198), so
no constructor raises anything, which is safe. -/
inductive Fault where
  deriving DecidableEq, Repr

/-- The reasons a step can end in a refusal. -/
inductive Refusal where
  /-- An arm of `exec` that has no meaning yet raises this (safe: the machine stops). No arm does. -/
  | notModelled (mnemonic : String)
  deriving DecidableEq, Repr

/-- The machine right after hardware reset: every value is the spec's (10_state.md R29). The traces
start empty, as R29 says of a model. No host event is waiting: DESIGN CHOICE, log entry 2. -/
def State.reset : State :=
  { freq := Vector.replicate Config.nsym 0
    pl := []
    tree := none
    nnodes := 0
    ct := Vector.replicate Config.nsym []
    acc := 0
    nb := 0
    fault := none
    out := []
    rsp := []
    input := [] }

end Sys2Proof.Machine
end

