-- ==== Sys2Proof/Machine/Ops.lean ====
section
/-! DEFINITION. The named operations of HUFFCORE: updates of the state, the index spaces, the pure
functions of the priority list, the tree builder, the code table and the bit packer, responses,
taking a fault and leaving it, reset. -/

namespace Sys2Proof.Machine

/-- What a meaning answers. -/
abbrev Result := Host.Outcome State Fault Refusal

/-! ## Updates of one piece of state -/

/-- `FREQ <- f` -/
def State.setFreq (s : State) (f : FreqTable) : State := { s with freq := f }

/-- `PL <- l` -/
def State.setPl (s : State) (l : List HuffTree) : State := { s with pl := l }

/-- `TREE <- t` -/
def State.setTree (s : State) (t : Option HuffTree) : State := { s with tree := t }

/-- `NNODES <- n` -/
def State.setNNodes (s : State) (n : BitVec 9) : State := { s with nnodes := n }

/-- `CT <- c` -/
def State.setCt (s : State) (c : CodeTable) : State := { s with ct := c }

/-- `ACC <- a; NB <- n` -/
def State.setPending (s : State) (a : BitVec 7) (n : BitVec 3) : State := { s with acc := a, nb := n }

/-- `FAULT <- f` -/
def State.setFault (s : State) (f : Option FaultKind) : State := { s with fault := f }

/-- `emit(b)`: the byte is added at the end of OUT (10_state.md R28). -/
def State.emit (s : State) (b : Byte) : State := { s with out := s.out ++ [b] }

/-- The response of the command is added at the end of RSP (R27). -/
def State.record (s : State) (r : Response) : State := { s with rsp := s.rsp ++ [r] }

/-- The host's events still to come. -/
def State.setInput (s : State) (es : List HostEvent) : State := { s with input := es }

/-! ## Index spaces (20_memory.md R40 to R42) -/

/-- Read of the whole entry of a symbol: `FREQ[s]`, `CT[s]`. -/
def readSym {α : Type} (t : SymTable α) (s : Symbol) : α := t[s.toNat]'s.isLt

/-- Write of the whole entry of a symbol. -/
def writeSym {α : Type} (t : SymTable α) (s : Symbol) (a : α) : SymTable α := t.set s.toNat a s.isLt

/-- A table with every entry the same: `for s in 0..255: T[s] <- a`. -/
def clearedTable {α : Type} (a : α) : SymTable α := Vector.replicate Config.nsym a

/-- The symbols 0 to 255, upward (00_scope.md R7). -/
def allSymbols : List Symbol := (List.range Config.nsym).map (BitVec.ofNat 8)

/-! ## Trees (10_state.md R16 to R18, 42_plist.md R110 to R112, 43_tree.md R140 to R144) -/

/-- `weight(n)` (R17). -/
def HuffTree.weight : HuffTree → Weight
  | .leaf w _ => w
  | .node w _ _ _ => w

/-- `rep(n)`, the representative symbol (R17). -/
def HuffTree.rep : HuffTree → Symbol
  | .leaf _ s => s
  | .node _ t _ _ => t

/-- Whether the tree is a Node (R121). -/
def HuffTree.isNode : HuffTree → Bool
  | .leaf _ _ => false
  | .node _ _ _ _ => true

/-- `tree_lt(x, y)`: by weight, then by representative symbol, both unsigned (R110). -/
def treeLt (x y : HuffTree) : Bool :=
  x.weight.ult y.weight || (x.weight == y.weight && x.rep.ult y.rep)

/-- `insert(list, n)`: before the first entry that `n` precedes, else at the end (R111). -/
def insertTree (list : List HuffTree) (n : HuffTree) : List HuffTree :=
  let p := list.findIdx (treeLt n)
  list.take p ++ [n] ++ list.drop p

/-- `initial_sort(list)`: each element inserted into the sorted remainder (R112). -/
def initialSort : List HuffTree → List HuffTree
  | [] => []
  | x :: rest => insertTree (initialSort rest) x

/-- The lesser of two symbols (R50). -/
def minSymbol (a b : Symbol) : Symbol := if b.ult a then b else a

/-- `merge(a, b)`: the sum of the weights, the lesser representative symbol, `a` left and `b` right
(R140). The commands make it only when the sum is below `2^W` (R141), so the addition is exact. -/
def mergeTrees (a b : HuffTree) : HuffTree :=
  .node (a.weight + b.weight) (minSymbol a.rep b.rep) a b

/-- `coalesce_once(list)` on a list of at least two entries (R142); a shorter list is left as it is,
which no command asks for. -/
def coalesceOnce : List HuffTree → List HuffTree
  | a :: b :: rest => insertTree rest (mergeTrees a b)
  | l => l

/-- At most `fuel` applications of `coalesce_once`, stopping at a list of at most one entry. -/
def coalesceFuel : Nat → List HuffTree → List HuffTree
  | 0, l => l
  | fuel + 1, l => if l.length ≤ 1 then l else coalesceFuel fuel (coalesceOnce l)

/-- `coalesce_all(list)` (R144): a list of n entries takes n − 1 merges, so its length is enough fuel. -/
def coalesceAll (l : List HuffTree) : List HuffTree := coalesceFuel l.length l

/-- The sum of the weights of a list of trees, as a natural (R5, R145). -/
def totalWeight (l : List HuffTree) : Nat := (l.map fun t => t.weight.toNat).sum

/-- The base list of a frequency table: one Leaf for each symbol whose count is not zero, or for every
symbol when `ZERO_LEAVES` = 1, in ascending symbol order (R114). -/
def baseList (cfg : Config) (f : FreqTable) : List HuffTree :=
  (allSymbols.filter fun s => cfg.zeroLeaves || readSym f s != 0).map fun s => .leaf (readSym f s) s

/-! ## The code table (44_codetable.md R160) -/

/-- `walk(t, path)` over the table it fills: left subtree first, '0' left and '1' right. -/
def walk : HuffTree → BitString → CodeTable → CodeTable
  | .leaf _ s, path, ct => writeSym ct s path
  | .node _ _ l r, path, ct => walk r (path ++ [true]) (walk l (path ++ [false]) ct)

/-- The table CTBLD makes of TREE (R161). -/
def codeTableOf : Option HuffTree → CodeTable
  | none => clearedTable []
  | some t => walk t [] (clearedTable [])

/-- The length half of a physical CT entry (30_encoding.md R77). -/
def physLen (b : BitString) : BitVec 8 := BitVec.ofNat 8 b.length

/-- The bit half of a physical CT entry: element `k` of the codeword is `code[254 − k]`, and the
positions beyond the length are 0 (R77). -/
def physCode (b : BitString) : BitVec 255 := BitVec.ofFnLE fun m => b.getD (254 - m.val) false

/-- Thirty-two bits of a codeword: element `32c + k` at data bit `31 − k`, 0 beyond the length (R163). -/
def chunkOf (b : BitString) (c : BitVec 3) : Word :=
  BitVec.ofFnLE fun m => b.getD (32 * c.toNat + (31 - m.val)) false

/-! ## The bit packer (45_bitpack.md R175, R178) -/

/-- One turn of the loop of `append_bits`: a byte leaves when the eighth bit arrives (R175). -/
def appendBit (s : State) (b : Bool) : State :=
  let byte8 : Byte := s.acc.concat b
  if s.nb = 7 then (s.setPending 0 0).emit byte8
  else s.setPending (byte8.setWidth 7) (s.nb + 1)

/-- `append_bits(b)`: the elements first to last (R175). -/
def appendBits (s : State) (b : BitString) : State := b.foldl appendBit s

/-- The byte FLUSH emits: the pending bits, then zeros, `ACC << (8 − NB)` (R178). -/
def paddedByte (acc : BitVec 7) (nb : BitVec 3) : Byte := acc.setWidth 8 <<< (8 - nb.toNat)

/-- Byte alignment: a byte leaves if bits are pending (R178). -/
def flushPending (s : State) : State :=
  if s.nb = 0 then s else (s.emit (paddedByte s.acc s.nb)).setPending 0 0

/-- Element `p` of a bit-string as a number, 0 beyond its length (30_encoding.md R75). -/
def packBit (b : BitString) (p : Nat) : Nat := (b.getD p false).toNat

/-- `byte(k)` of R75: most significant bit first. -/
def packByte (b : BitString) (k : Nat) : Byte :=
  BitVec.ofNat 8 ((List.range 8).map fun m => packBit b (8 * k + m) * 2 ^ (7 - m)).sum

/-- `pack(b)` of R75, the function the packer computes piece by piece (R180). -/
def pack (b : BitString) : List Byte := (List.range ((b.length + 7) / 8)).map (packByte b)

/-! ## Responses (30_encoding.md R70) -/

/-- `respond(data)`: the command ends normally (00_scope.md R7). -/
def respond (data : Word) (s : State) : State := s.record ⟨.ok, data⟩

/-- Refused with Halted: nothing changes, the response is (8, the command word) (R199). -/
def refuseHalted (cmd : Word) (s : State) : State := s.record ⟨.halted, cmd⟩

/-! ## Taking a fault and leaving it (60_exceptions.md R198, R199, R209) -/

/-- TAKING A FAULT, the counterpart of exception entry (R198): FAULT gets the kind if it is 0 (R23),
the response is (code, the command word), no data state changes and no byte leaves. -/
def raise (k : FaultKind) (cmd : Word) (s : State) : State :=
  (s.setFault (s.fault.or (some k))).record ⟨.fault k, cmd⟩

/-- THE RETURN from a fault (R209): ERRACK sets FAULT to 0 and changes nothing else (R93). -/
def acknowledge (s : State) : State := s.setFault none

/-- Every piece of state at its reset value (R29, R91, R225); bytes and responses that have left stay
(R28), and the host's events are the host's. -/
def resetState (s : State) : State :=
  { State.reset with out := s.out, rsp := s.rsp, input := s.input }

/-- The check common to every command but the four of R199: while FAULT is not 0 the command is
refused, else it does what its rule says (R207 step 1). -/
def unlessHalted (i : Instr) (s : State) (body : State → State) : Result :=
  .next (if s.fault.isSome then refuseHalted (encode i) s else body s)

/-- A command the block executes whether or not it is halted (R199). -/
def evenHalted (s : State) (body : State → State) : Result := .next (body s)

/-- What a word that does not decode does: Halted comes before IllegalCommand (R200, R207). -/
def rejectWord (w : Word) (s : State) : State :=
  if s.fault.isSome then refuseHalted w s else raise .illegalCommand w s

end Sys2Proof.Machine
end

