-- ==== Sys2Proof/Machine/Operands.lean ====
section
/-! DEFINITION. The operand forms of 30_encoding.md R62: what each field of a command word stands for. -/

namespace Sys2Proof.Machine

/-- The symbol an input element denotes: its low byte when it is at most 255, else none; it is not
truncated (10_state.md R14, 90_conflicts.md C2). -/
def symbolOf (v : InputElem) : Option Symbol :=
  if v.toNat ≤ 255 then some (v.setWidth 8) else none

/-- The entry an index names, which exists when it is below LEN (20_memory.md R42). -/
def entryAt (s : State) (i : ListIndex) : Option HuffTree := s.pl[i.toNat]?

/-- Whether an input element has the `V_IN` bits of the configuration (R14). An element that has more is
above 255, since `V_IN` is above 8, so CNT and ENC treat it as any element above 255 (DEDUCED, log 5). -/
def elementFits (cfg : Config) (v : InputElem) : Bool := decide (v.toNat < 2 ^ cfg.vIn)

/-- The weight of a new leaf, `zext_W(w)` (R62). An operand that does not fit `W` bits, which takes a `W`
below 16, gives an unstated weight of `W` bits (log entry 9). -/
def leafWeight (cfg : Config) (w : BitVec 16) : Weight :=
  if w.toNat < 2 ^ cfg.w then w.setWidth 32
  else BitVec.ofNat 32 (Config.unstatedWeight cfg.w w % 2 ^ cfg.w)

/-- The raw bits of BITS: `pat[n−1]` first, `pat[0]` last; `pat[15:n]` is ignored (R62, R177). -/
def rawBits (n : BitVec 5) (pat : BitVec 16) : BitString :=
  (List.range n.toNat).map fun k => pat.getLsbD (n.toNat - 1 - k)

/-- `code(v)`: the lookup the encoder makes; an element above 255 has the empty code
(44_codetable.md R165). -/
def codeOf (ct : CodeTable) (v : InputElem) : BitString :=
  match symbolOf v with
  | some s => readSym ct s
  | none => []

/-- The bits a command appends to the pending bits: the code of ENC, the raw bits of BITS, none for
any other command (45_bitpack.md R180). -/
def appendedBits (ct : CodeTable) : Instr → BitString
  | .enc v => codeOf ct v
  | .bits n pat => rawBits n pat
  | .nop | .rst | .stat | .errack | .fclr | .cnt _ | .frd _ | .plclr | .base | .plapp _ _
  | .plins _ _ | .sort | .pllen | .plrdw _ | .plrdk _ | .pllt _ _ | .co1 | .coall | .build
  | .ctbld | .ctlen _ | .ctrd _ _ | .flush | .bpclr => []

end Sys2Proof.Machine
end

