-- ==== Sys2Proof/Machine/Flags.lean ====
section
/-! DEFINITION. The status views (10_state.md R24), the fault codes (60_exceptions.md R195), the
one-bit results of the read commands (30_encoding.md R71), and the ports as views of the state
(10_state.md R25). The block has no condition flags. -/

namespace Sys2Proof.Machine

/-- The code of a fault (R195). -/
def FaultKind.code : FaultKind → BitVec 4
  | .underflow => 1
  | .index => 2
  | .illegalCommand => 3
  | .countOverflow => 4
  | .weightOverflow => 5
  | .listFull => 6
  | .arenaFull => 7

/-- The 4-bit FAULT register (10_state.md R23): 0 when no fault is latched. -/
def State.faultReg (s : State) : BitVec 4 :=
  match s.fault with
  | none => 0
  | some k => k.code

/-- The 4-bit response code (30_encoding.md R70). -/
def RspCode.code : RspCode → BitVec 4
  | .ok => 0
  | .fault k => k.code
  | .halted => 8

/-- TV: 1 when TREE holds a tree (R19). -/
def State.tv (s : State) : BitVec 1 := BitVec.ofBool s.tree.isSome

/-- LEN, 9 bits (R21). -/
def State.len (s : State) : BitVec 9 := BitVec.ofNat 9 s.pl.length

/-- STATUS: FAULT in 3:0, TV in 4, NB in 7:5, ACC in 14:8, zeros above (R24, R92). -/
def State.status (s : State) : Word := 0#17 ++ s.acc ++ s.nb ++ s.tv ++ s.faultReg

/-- LISTINFO: LEN in 8:0, NNODES in 24:16, zeros elsewhere (R24, R119). -/
def State.listInfo (s : State) : Word := 0#7 ++ s.nnodes ++ 0#7 ++ s.len

/-- The data of PLRDK: the kind in bit 8, the representative symbol in 7:0 (R121). -/
def kindAndRep (t : HuffTree) : Word := 0#23 ++ BitVec.ofBool t.isNode ++ t.rep

/-- The data of a one-bit answer: bit 0, zeros above (R122). -/
def boolWord (b : Bool) : Word := 0#31 ++ BitVec.ofBool b

/-- The data of CTLEN: the length in 7:0, zeros above (R162). -/
def lengthWord (b : BitString) : Word := 0#24 ++ physLen b

/-- `fault_o`: 1 exactly while FAULT is not 0 (60_exceptions.md R206). -/
def State.faultO (s : State) : Bool := s.faultReg != 0

/-- `cmd` with `cmd_valid`: the word the host presents, if it presents one (R25). -/
def State.cmdPort (s : State) : Option Word :=
  match s.input with
  | .command w :: _ => some w
  | _ => none

/-- The `rst` pin (R25). -/
def State.rstPin (s : State) : Bool := s.input.head? == some .resetPin

/-- `cmd_ready`: between commands the block accepts the next, but not while `rst` is 1 (R26, R225). -/
def State.cmdReady (s : State) : Bool := !s.rstPin

/-- `rsp_code` and `rsp_data` with `rsp_valid`: the response of the command last accepted (R25). -/
def State.rspPort (s : State) : Option (BitVec 4 × Word) :=
  s.rsp.getLast?.map fun r => (r.code.code, r.data)

/-- `out_byte` with `out_valid`, over one step: the bytes emitted from state `s` to state `t` (R28). -/
def outPort (s t : State) : List Byte := t.out.drop s.out.length

end Sys2Proof.Machine
end

