-- ==== Sys2Proof/Machine/BitPacker.lean ====
section
/-! DEFINITION. The bit-packer commands ENC, BITS, FLUSH, BPCLR (45_bitpack.md R176 to R179). -/

namespace Sys2Proof.Machine

/-- The effect of BITS n, pat (R177). A word with `n > BITS_MAX` does not decode; the term, which no
word decodes to, is given the IllegalCommand of its word (R64 (c)). -/
def appendRaw (cfg : Config) (n : BitVec 5) (pat : BitVec 16) (s : State) : State :=
  if n.toNat > cfg.bitsMax then raise .illegalCommand (encode (.bits n pat)) s
  else respond 0 (appendBits s (rawBits n pat))

/-- ENC v: append the codeword of one input element (R176). -/
def execEnc (v : InputElem) (s : State) : Result :=
  unlessHalted (.enc v) s fun s => respond 0 (appendBits s (codeOf s.ct v))

/-- BITS n, pat: append n raw bits (R177). -/
def execBitsIn (cfg : Config) (n : BitVec 5) (pat : BitVec 16) (s : State) : Result :=
  unlessHalted (.bits n pat) s (appendRaw cfg n pat)

/-- BITS on this hardware. -/
def execBits (n : BitVec 5) (pat : BitVec 16) (s : State) : Result := execBitsIn Config.hardware n pat s

/-- FLUSH: byte-align the output (R178). -/
def execFlush (s : State) : Result := unlessHalted .flush s fun s => respond 0 (flushPending s)

/-- BPCLR: drop the pending bits (R179). -/
def execBpclr (s : State) : Result :=
  unlessHalted .bpclr s fun s => respond 0 (s.setPending 0 0)

end Sys2Proof.Machine
end

