-- ==== Sys2Proof/Machine/CodeTable.lean ====
section
/-! DEFINITION. The code-table commands CTBLD, CTLEN, CTRD (44_codetable.md R161 to R163). -/

namespace Sys2Proof.Machine

/-- CTBLD: build the code table from TREE, which stays latched (R161). -/
def execCtbld (s : State) : Result :=
  unlessHalted .ctbld s fun s => respond 0 (s.setCt (codeTableOf s.tree))

/-- CTLEN a: read the length of a codeword (R162). -/
def execCtlen (a : Symbol) (s : State) : Result :=
  unlessHalted (.ctlen a) s fun s => respond (lengthWord (readSym s.ct a)) s

/-- CTRD a, c: read 32 bits of a codeword (R163). -/
def execCtrd (a : Symbol) (c : BitVec 3) (s : State) : Result :=
  unlessHalted (.ctrd a c) s fun s => respond (chunkOf (readSym s.ct a) c) s

end Sys2Proof.Machine
end

