-- ==== Sys2Proof/Machine/Control.lean ====
section
/-! DEFINITION. The control commands NOP, RST, STAT, ERRACK (40_control.md R90 to R93). They execute
while the block is halted. -/

namespace Sys2Proof.Machine

/-- NOP: do nothing (R90). -/
def execNop (s : State) : Result := evenHalted s fun s => respond 0 s

/-- RST: every piece of state at its reset value; no byte leaves, OUT and RSP keep what left (R91). -/
def execRst (s : State) : Result := evenHalted s fun s => respond 0 (resetState s)

/-- STAT: read STATUS (R92). -/
def execStat (s : State) : Result := evenHalted s fun s => respond s.status s

/-- ERRACK: clear FAULT and nothing else (R93). -/
def execErrack (s : State) : Result := evenHalted s fun s => respond 0 (acknowledge s)

end Sys2Proof.Machine
end

