-- ==== Sys2Proof/Machine/Freq.lean ====
section
/-! DEFINITION. The frequency-counter commands FCLR, CNT, FRD (41_freq.md R100 to R102). -/

namespace Sys2Proof.Machine

/-- The effect of CNT v (R101): an element above 255 is ignored, a count at `2^W − 1` faults and keeps
its value, any other count goes up by one. -/
def countElement (cfg : Config) (v : InputElem) (s : State) : State :=
  match symbolOf v with
  | none => respond 0 s
  | some a =>
    if (readSym s.freq a).toNat = 2 ^ cfg.w - 1 then raise .countOverflow (encode (.cnt v)) s
    else respond 0 (s.setFreq (writeSym s.freq a (readSym s.freq a + 1)))

/-- FCLR: clear the frequency table (R100). -/
def execFclr (s : State) : Result :=
  unlessHalted .fclr s fun s => respond 0 (s.setFreq (clearedTable 0))

/-- CNT v: count one input element (R101). -/
def execCntIn (cfg : Config) (v : InputElem) (s : State) : Result :=
  unlessHalted (.cnt v) s (countElement cfg v)

/-- CNT on this hardware. -/
def execCnt (v : InputElem) (s : State) : Result := execCntIn Config.hardware v s

/-- FRD a: read one count (R102). -/
def execFrd (a : Symbol) (s : State) : Result :=
  unlessHalted (.frd a) s fun s => respond (readSym s.freq a) s

end Sys2Proof.Machine
end

