-- ==== Sys2Proof/Machine/PriorityList.lean ====
section
/-! DEFINITION. The priority-list commands PLCLR, BASE, PLAPP, PLINS, SORT, PLLEN, PLRDW, PLRDK, PLLT
(42_plist.md R114 to R122). -/

namespace Sys2Proof.Machine

/-- The effect of BASE (R114): the base list of FREQ, no tree, one node counted per leaf. -/
def loadBaseList (cfg : Config) (s : State) : State :=
  let l := baseList cfg s.freq
  respond 0 (((s.setPl l).setTree none).setNNodes (BitVec.ofNat 9 l.length))

/-- What PLAPP and PLINS share (R116, R117): ListFull, then ArenaFull, else the new list and one node
more. -/
def addLeaf (cfg : Config) (i : Instr) (newList : List HuffTree) (s : State) : State :=
  if s.pl.length = cfg.listCap then raise .listFull (encode i) s
  else if s.nnodes.toNat = cfg.nodeCap then raise .arenaFull (encode i) s
  else respond 0 ((s.setPl newList).setNNodes (s.nnodes + 1))

/-- What the reads of one entry share (R120, R121): Index beyond the list, else the data. -/
def readEntry (i : Instr) (k : ListIndex) (data : HuffTree → Word) (s : State) : State :=
  match entryAt s k with
  | none => raise .index (encode i) s
  | some t => respond (data t) s

/-- The effect of PLLT (R122): Index if either entry is missing, else the comparison. -/
def compareEntries (i j : ListIndex) (s : State) : State :=
  match entryAt s i, entryAt s j with
  | some x, some y => respond (boolWord (treeLt x y)) s
  | _, _ => raise .index (encode (.pllt i j)) s

/-- PLCLR: empty the list and forget the tree (R115). -/
def execPlclr (s : State) : Result :=
  unlessHalted .plclr s fun s => respond 0 (((s.setPl []).setTree none).setNNodes 0)

/-- BASE: make the base list from the frequency table (R114). -/
def execBaseIn (cfg : Config) (s : State) : Result := unlessHalted .base s (loadBaseList cfg)

/-- BASE on this hardware. -/
def execBase (s : State) : Result := execBaseIn Config.hardware s

/-- PLAPP a, w: put one leaf at the tail of the list, without ordering (R116). -/
def execPlappIn (cfg : Config) (a : Symbol) (w : BitVec 16) (s : State) : Result :=
  unlessHalted (.plapp a w) s fun s =>
    addLeaf cfg (.plapp a w) (s.pl ++ [.leaf (leafWeight cfg w) a]) s

/-- PLAPP on this hardware. -/
def execPlapp (a : Symbol) (w : BitVec 16) (s : State) : Result := execPlappIn Config.hardware a w s

/-- PLINS a, w: insert one leaf in order (R117). -/
def execPlinsIn (cfg : Config) (a : Symbol) (w : BitVec 16) (s : State) : Result :=
  unlessHalted (.plins a w) s fun s =>
    addLeaf cfg (.plins a w) (insertTree s.pl (.leaf (leafWeight cfg w) a)) s

/-- PLINS on this hardware. -/
def execPlins (a : Symbol) (w : BitVec 16) (s : State) : Result := execPlinsIn Config.hardware a w s

/-- SORT: sort the list (R118). -/
def execSort (s : State) : Result :=
  unlessHalted .sort s fun s => respond 0 (s.setPl (initialSort s.pl))

/-- PLLEN: read LISTINFO (R119). -/
def execPllen (s : State) : Result := unlessHalted .pllen s fun s => respond s.listInfo s

/-- PLRDW i: read the weight of entry i (R120). -/
def execPlrdw (i : ListIndex) (s : State) : Result :=
  unlessHalted (.plrdw i) s (readEntry (.plrdw i) i fun t => t.weight)

/-- PLRDK i: read the kind and the representative symbol of entry i (R121). -/
def execPlrdk (i : ListIndex) (s : State) : Result :=
  unlessHalted (.plrdk i) s (readEntry (.plrdk i) i kindAndRep)

/-- PLLT i, j: compare two entries (R122). -/
def execPllt (i j : ListIndex) (s : State) : Result :=
  unlessHalted (.pllt i j) s (compareEntries i j)

end Sys2Proof.Machine
end

