-- ==== Sys2Proof/Machine/TreeBuilder.lean ====
section
/-! DEFINITION. The tree-builder commands CO1, COALL, BUILD (43_tree.md R143, R145, R146). -/

namespace Sys2Proof.Machine

/-- The effect of CO1 (R143): Underflow, then ArenaFull, then WeightOverflow, else one merge. -/
def coalesceStep (cfg : Config) (s : State) : State :=
  match s.pl with
  | a :: b :: _ =>
    if s.nnodes.toNat = cfg.nodeCap then raise .arenaFull (encode .co1) s
    else if a.weight.toNat + b.weight.toNat ≥ 2 ^ cfg.w then raise .weightOverflow (encode .co1) s
    else respond 0 ((s.setPl (coalesceOnce s.pl)).setNNodes (s.nnodes + 1))
  | _ => raise .underflow (encode .co1) s

/-- The effect of COALL (R145): the checks are made before any merge. -/
def coalesceList (cfg : Config) (s : State) : State :=
  let m := s.pl.length - 1
  if s.nnodes.toNat + m > cfg.nodeCap then raise .arenaFull (encode .coall) s
  else if s.pl.length ≥ 2 ∧ totalWeight s.pl ≥ 2 ^ cfg.w then
    raise .weightOverflow (encode .coall) s
  else
    let l := coalesceAll s.pl
    respond 0 (((s.setPl l).setNNodes (BitVec.ofNat 9 (s.nnodes.toNat + m))).setTree l.head?)

/-- The effect of BUILD (R146): the base list sorted and coalesced, or WeightOverflow. -/
def buildTree (cfg : Config) (s : State) : State :=
  let l0 := baseList cfg s.freq
  let n := l0.length
  if n ≥ 2 ∧ totalWeight l0 ≥ 2 ^ cfg.w then raise .weightOverflow (encode .build) s
  else
    let l := coalesceAll (initialSort l0)
    respond 0 (((s.setPl l).setNNodes (BitVec.ofNat 9 (n + (n - 1)))).setTree l.head?)

/-- CO1: one coalescing step (R143). -/
def execCo1In (cfg : Config) (s : State) : Result := unlessHalted .co1 s (coalesceStep cfg)

/-- CO1 on this hardware. -/
def execCo1 (s : State) : Result := execCo1In Config.hardware s

/-- COALL: coalesce until at most one entry remains, and latch the tree (R145). -/
def execCoallIn (cfg : Config) (s : State) : Result := unlessHalted .coall s (coalesceList cfg)

/-- COALL on this hardware. -/
def execCoall (s : State) : Result := execCoallIn Config.hardware s

/-- BUILD: from the frequency table to the finished tree (R146). -/
def execBuildIn (cfg : Config) (s : State) : Result := unlessHalted .build s (buildTree cfg)

/-- BUILD on this hardware. -/
def execBuild (s : State) : Result := execBuildIn Config.hardware s

end Sys2Proof.Machine
end

