-- ==== Sys2Proof/Machine/Dispatch.lean ====
section
/-! DEFINITION. One arm per command: each calls its meaning. -/

namespace Sys2Proof.Machine

def exec (i : Instr) (s : State) : Host.Outcome State Fault Refusal :=
  match i with
  | .nop => Sys2Proof.Machine.execNop s
  | .rst => Sys2Proof.Machine.execRst s
  | .stat => Sys2Proof.Machine.execStat s
  | .errack => Sys2Proof.Machine.execErrack s
  | .fclr => Sys2Proof.Machine.execFclr s
  | .cnt v => Sys2Proof.Machine.execCnt v s
  | .frd a => Sys2Proof.Machine.execFrd a s
  | .plclr => Sys2Proof.Machine.execPlclr s
  | .base => Sys2Proof.Machine.execBase s
  | .plapp a w => Sys2Proof.Machine.execPlapp a w s
  | .plins a w => Sys2Proof.Machine.execPlins a w s
  | .sort => Sys2Proof.Machine.execSort s
  | .pllen => Sys2Proof.Machine.execPllen s
  | .plrdw k => Sys2Proof.Machine.execPlrdw k s
  | .plrdk k => Sys2Proof.Machine.execPlrdk k s
  | .pllt k j => Sys2Proof.Machine.execPllt k j s
  | .co1 => Sys2Proof.Machine.execCo1 s
  | .coall => Sys2Proof.Machine.execCoall s
  | .build => Sys2Proof.Machine.execBuild s
  | .ctbld => Sys2Proof.Machine.execCtbld s
  | .ctlen a => Sys2Proof.Machine.execCtlen a s
  | .ctrd a c => Sys2Proof.Machine.execCtrd a c s
  | .enc v => Sys2Proof.Machine.execEnc v s
  | .bits n pat => Sys2Proof.Machine.execBits n pat s
  | .flush => Sys2Proof.Machine.execFlush s
  | .bpclr => Sys2Proof.Machine.execBpclr s

end Sys2Proof.Machine
end

