-- ==== Sys2Proof/Machine/Accept.lean ====
section
/-! DEFINITION. Taking one event of the host: a command word is decoded and executed or rejected
(10_state.md R26, 30_encoding.md R66), a pulse of `rst` resets (70_reset_and_hazards.md R225). -/

namespace Sys2Proof.Machine

/-- The block accepts a command word: every word is accepted, and one that does not decode is answered
with Halted or IllegalCommand (R26, R200, R207). -/
def acceptWord (w : Word) (s : State) : Result :=
  match decode w with
  | some i => exec i s
  | none => .next (rejectWord w s)

/-- Hardware reset: the state of R29, with no response and no byte (R225, R226). -/
def hardwareReset (s : State) : State := resetState s

/-- One event of the host. -/
def takeEvent (e : HostEvent) (s : State) : Result :=
  match e with
  | .command w => acceptWord w s
  | .resetPin => .next (hardwareReset s)

/-- Commands executed one after the other, as the host sends them (R26, R51). -/
def execAll : List Instr → State → Result
  | [], s => .next s
  | i :: is, s =>
    match exec i s with
    | .next t => execAll is t
    | .fault r => .fault r
    | .refused r => .refused r

end Sys2Proof.Machine
end

