-- ==== Sys2Proof/Machine/Step.lean ====
section
/-! DEFINITION. The step of the engine (10_state.md R32): the oldest event of the host is taken. -/

namespace Sys2Proof.Machine

/-- One step. With no event waiting the block is idle and keeps all state (60_exceptions.md R212). -/
def step (s : State) : Host.Outcome State Fault Refusal :=
  match s.input with
  | [] => .next s
  | e :: rest => takeEvent e (s.setInput rest)

/-- The state in which the host presents a word of the opcode table as its next command: the block
fetches nothing (10_state.md R31), so the word goes to the front of the host's events (log entry 3). -/
def State.withFetchWord (s : State) (nbits w : Nat) : State :=
  s.setInput (.command (tableWord nbits w) :: s.input)

end Sys2Proof.Machine
end

