-- ==== Sys2Proof/Machine/Assembler.lean ====
section
/-! DEFINITION. The assembler notation of 30_encoding.md R78 and the expansion of the
pseudo-instructions of R79. The block itself sees command words only. -/

namespace Sys2Proof.Machine

/-! ## Pseudo-instructions (R79) -/

/-- A bit-string split from the left into chunks of 16, the last 1 to 16 long. -/
def bitChunks : Nat → BitString → List BitString
  | 0, _ => []
  | _ + 1, [] => []
  | fuel + 1, b :: bs => (b :: bs).take 16 :: bitChunks fuel ((b :: bs).drop 16)

/-- `value(q)`: the bit-string read as a binary number, first bit most significant. -/
def bitValue (q : BitString) : Nat := q.foldl (fun n b => 2 * n + b.toNat) 0

/-- `BITSTR "bits"`: one BITS command for each chunk. -/
def expandBits (b : BitString) : List Instr :=
  (bitChunks b.length b).map fun q => .bits (BitVec.ofNat 5 q.length) (BitVec.ofNat 16 (bitValue q))

/-- The command sequence of a pseudo-instruction (R79). -/
def expand : Pseudo → List Instr
  | .cntstr text => text.map .cnt
  | .s2t text => [.fclr] ++ text.map .cnt ++ [.build]
  | .encstr text => text.map .enc
  | .bitstr b => expandBits b
  | .pack b => [.bpclr] ++ expandBits b ++ [.flush]
  | .huff text =>
    [.fclr] ++ text.map .cnt ++ [.build] ++ [.ctbld, .bpclr] ++ text.map .enc ++ [.flush]

/-! ## One line of assembly (R78) -/

/-- The pieces of a line. -/
inductive Token where
  | word (cs : List Char)
  | number (n : Nat)
  | text (cs : List Char)
  | comma
  deriving DecidableEq, Repr

/-- Where the reader of a line stands; a part read so far is kept in reverse. -/
inductive LexMode where
  | between
  | inWord (rev : List Char)
  | inText (rev : List Char)
  | quoteOpen
  | quoteClose (c : Char)
  deriving DecidableEq, Repr

/-- The single quote. -/
def singleQuote : Char := Char.ofNat 39

/-- The double quote. -/
def doubleQuote : Char := Char.ofNat 34

/-- The semicolon that starts a comment. -/
def commentMark : Char := Char.ofNat 59

/-- The comma between operands. -/
def commaMark : Char := Char.ofNat 44

/-- Blanks between the parts of a line: space and tab (DESIGN CHOICE, log entry 8). -/
def isBlank (c : Char) : Bool := c == Char.ofNat 32 || c == Char.ofNat 9

/-- Whether a character ends a word: a quote does without a blank before it (DESIGN CHOICE, log 8). -/
def endsWord (c : Char) : Bool :=
  isBlank c || c == commaMark || c == singleQuote || c == doubleQuote

/-- What a character read between the parts of a line begins. -/
def beginPart (c : Char) : List Token × LexMode :=
  if isBlank c then ([], .between)
  else if c == commaMark then ([.comma], .between)
  else if c == singleQuote then ([], .quoteOpen)
  else if c == doubleQuote then ([], .inText [])
  else ([], .inWord [c])

/-- The parts of a line up to its comment, or `none` when a quote is not closed. R78 says that `;` starts a
comment; that one inside a double-quoted text or between single quotes does not, but stands for itself, is
a DESIGN CHOICE (log entry 8), as is that no character of a text escapes another. -/
def lexLine (mode : LexMode) : List Char → Option (List Token)
  | [] =>
    match mode with
    | .between => some []
    | .inWord rev => some [.word rev.reverse]
    | .inText _ | .quoteOpen | .quoteClose _ => none
  | c :: cs =>
    match mode with
    | .between =>
      if c == commentMark then some []
      else (lexLine (beginPart c).2 cs).map ((beginPart c).1 ++ ·)
    | .inWord rev =>
      if c == commentMark then some [.word rev.reverse]
      else if endsWord c then
        (lexLine (beginPart c).2 cs).map (.word rev.reverse :: (beginPart c).1 ++ ·)
      else lexLine (.inWord (c :: rev)) cs
    | .inText rev =>
      if c == doubleQuote then (lexLine .between cs).map (.text rev.reverse :: ·)
      else lexLine (.inText (c :: rev)) cs
    | .quoteOpen => lexLine (.quoteClose c) cs
    | .quoteClose d =>
      if c == singleQuote then (lexLine .between cs).map (.number d.toNat :: ·) else none

/-- The value of one digit in a base (hexadecimal letters in either case: DESIGN CHOICE, log 8). -/
def digitValue (base : Nat) (c : Char) : Option Nat :=
  let n := c.toNat
  let d := if 48 ≤ n ∧ n ≤ 57 then n - 48
    else if 65 ≤ n ∧ n ≤ 70 then n - 55
    else if 97 ≤ n ∧ n ≤ 102 then n - 87
    else base
  if d < base then some d else none

/-- A number in a base, from at least one digit. -/
def digits (base : Nat) : List Char → Option Nat
  | [] => none
  | c :: cs => (c :: cs).foldl
      (fun acc d => acc.bind fun n => (digitValue base d).map fun v => n * base + v) (some 0)

/-- Decimal, hexadecimal after `0x`, binary after `0b` (R78); leading zeros are allowed (DESIGN CHOICE,
log 8). -/
def parseNumber : List Char → Option Nat
  | '0' :: 'x' :: ds => digits 16 ds
  | '0' :: 'b' :: ds => digits 2 ds
  | ds => digits 10 ds

/-- The operands of a line, separated by commas. -/
def operandTokens : List Token → Option (List Token)
  | [] => some []
  | [.comma] => none
  | [t] => some [t]
  | .comma :: _ :: _ => none
  | t :: .comma :: u :: rest => (operandTokens (u :: rest)).map (t :: ·)
  | _ :: _ :: _ => none

/-- The value of a numeric operand: a number, or a character's value (R78; that the value is the
character's code is PRESUMED, 93_implementation_defined.md G1, log entry 8). -/
def operandValue : Token → Option Nat
  | .number n => some n
  | .word cs => parseNumber cs
  | .text _ | .comma => none

/-- An operand in its field; one that does not fit is refused (R78). -/
def field (k n : Nat) : Option (BitVec k) := if n < 2 ^ k then some (BitVec.ofNat k n) else none

/-- The commands of format Z by mnemonic. -/
def plainCommands : List (List Char × Instr) :=
  [ (['N', 'O', 'P'], .nop), (['R', 'S', 'T'], .rst), (['S', 'T', 'A', 'T'], .stat),
    (['E', 'R', 'R', 'A', 'C', 'K'], .errack), (['F', 'C', 'L', 'R'], .fclr) ] ++
  [ (['P', 'L', 'C', 'L', 'R'], .plclr), (['B', 'A', 'S', 'E'], .base), (['S', 'O', 'R', 'T'], .sort),
    (['P', 'L', 'L', 'E', 'N'], .pllen), (['C', 'O', '1'], .co1), (['C', 'O', 'A', 'L', 'L'], .coall) ] ++
  [ (['B', 'U', 'I', 'L', 'D'], .build), (['C', 'T', 'B', 'L', 'D'], .ctbld),
    (['F', 'L', 'U', 'S', 'H'], .flush), (['B', 'P', 'C', 'L', 'R'], .bpclr) ]

/-- An input element of the configuration: it fits its field and has `V_IN` bits (R14, R78). -/
def elementField (cfg : Config) (n : Nat) : Option InputElem := (field 24 n).filter (elementFits cfg)

/-- The commands of one operand. -/
def oneOperand (cfg : Config) (m : List Char) (a : Nat) : Option Instr :=
  if m = ['C', 'N', 'T'] then (elementField cfg a).map .cnt
  else if m = ['E', 'N', 'C'] then (elementField cfg a).map .enc
  else if m = ['F', 'R', 'D'] then (field 8 a).map .frd
  else if m = ['C', 'T', 'L', 'E', 'N'] then (field 8 a).map .ctlen
  else if m = ['P', 'L', 'R', 'D', 'W'] then (field 12 a).map .plrdw
  else if m = ['P', 'L', 'R', 'D', 'K'] then (field 12 a).map .plrdk
  else none

/-- Two operands in their fields. -/
def fieldPair (j k a b : Nat) (make : BitVec j → BitVec k → Instr) : Option Instr :=
  (field j a).bind fun x => (field k b).map fun y => make x y

/-- The commands of two operands, in the operand order of R78. -/
def twoOperands (m : List Char) (a b : Nat) : Option Instr :=
  if m = ['P', 'L', 'A', 'P', 'P'] then fieldPair 8 16 a b .plapp
  else if m = ['P', 'L', 'I', 'N', 'S'] then fieldPair 8 16 a b .plins
  else if m = ['P', 'L', 'L', 'T'] then fieldPair 12 12 a b .pllt
  else if m = ['C', 'T', 'R', 'D'] then fieldPair 8 3 a b .ctrd
  else if m = ['B', 'I', 'T', 'S'] then fieldPair 5 16 a b .bits
  else none

/-- The input elements of a quoted text (R79). -/
def textElements (cfg : Config) (cs : List Char) : Option (List InputElem) :=
  cs.mapM fun c => elementField cfg c.toNat

/-- The bit-string of a quoted row of '0' and '1'. -/
def textBits (cs : List Char) : Option BitString :=
  cs.mapM fun c => if c = '0' then some false else if c = '1' then some true else none

/-- The pseudo-instructions (R79). -/
def pseudoLine (cfg : Config) (m cs : List Char) : Option Pseudo :=
  if m = ['C', 'N', 'T', 'S', 'T', 'R'] then (textElements cfg cs).map .cntstr
  else if m = ['S', '2', 'T'] then (textElements cfg cs).map .s2t
  else if m = ['E', 'N', 'C', 'S', 'T', 'R'] then (textElements cfg cs).map .encstr
  else if m = ['H', 'U', 'F', 'F'] then (textElements cfg cs).map .huff
  else if m = ['B', 'I', 'T', 'S', 'T', 'R'] then (textBits cs).map .bitstr
  else if m = ['P', 'A', 'C', 'K'] then (textBits cs).map .pack
  else none

/-- The commands of a mnemonic with its operands. -/
def assembleParts (cfg : Config) (m : List Char) : List Token → Option (List Instr)
  | [] => (plainCommands.lookup m).map fun i => [i]
  | [.text cs] => (pseudoLine cfg m cs).map expand
  | [a] => (operandValue a).bind fun x => (oneOperand cfg m x).map fun i => [i]
  | [a, b] => (operandValue a).bind fun x => (operandValue b).bind fun y =>
      (twoOperands m x y).map fun i => [i]
  | _ :: _ :: _ :: _ => none

/-- One line of assembly: no command for an empty line or a comment, one for a command, the expansion
for a pseudo-instruction, `none` for a line the assembler refuses (R78, R79). -/
def assembleLineIn (cfg : Config) (line : List Char) : Option (List Instr) :=
  match lexLine .between line with
  | none => none
  | some [] => some []
  | some (.word m :: rest) => (operandTokens rest).bind (assembleParts cfg m)
  | some (_ :: _) => none

/-- One line of assembly for this hardware. -/
def assembleLine (line : List Char) : Option (List Instr) := assembleLineIn Config.hardware line

end Sys2Proof.Machine
end

