-- ==== Sys2Proof/Machine/Configured.lean ====
section
/-! DEFINITION. The machine as a function of its configuration (10_state.md R32; 00_scope.md R4;
92_eei_decisions.md, last paragraph): decoding is `decodeIn`, and here stand the command, the step and
the whole machine of any configuration. The host's interface sees `Config.hardware`. -/

namespace Sys2Proof.Machine

/-- A command in a configuration: the commands that read a parameter take it, all others have the one
meaning `exec` gives them. -/
def execIn (cfg : Config) (i : Instr) (s : State) : Result :=
  match i with
  | .cnt v => execCntIn cfg v s
  | .base => execBaseIn cfg s
  | .plapp a w => execPlappIn cfg a w s
  | .plins a w => execPlinsIn cfg a w s
  | .co1 => execCo1In cfg s
  | .coall => execCoallIn cfg s
  | .build => execBuildIn cfg s
  | .bits n pat => execBitsIn cfg n pat s
  | .nop | .rst | .stat | .errack | .fclr | .frd _ | .plclr | .sort | .pllen | .plrdw _ | .plrdk _
  | .pllt _ _ | .ctbld | .ctlen _ | .ctrd _ _ | .enc _ | .flush | .bpclr => exec i s

/-- The block of a configuration accepts a command word (R26, R200, R207). -/
def acceptWordIn (cfg : Config) (w : Word) (s : State) : Result :=
  match decodeIn cfg w with
  | some i => execIn cfg i s
  | none => .next (rejectWord w s)

/-- One event of the host, for the block of a configuration. -/
def takeEventIn (cfg : Config) (e : HostEvent) (s : State) : Result :=
  match e with
  | .command w => acceptWordIn cfg w s
  | .resetPin => .next (hardwareReset s)

/-- `step : Config × State × CommandWord → ...` of R32, the word being the host's oldest event. -/
def stepIn (cfg : Config) (s : State) : Result :=
  match s.input with
  | [] => .next s
  | e :: rest => takeEventIn cfg e (s.setInput rest)

/-- The machine of a configuration. -/
def coreIn (cfg : Config) : Host.Core :=
  { State := State, Fault := Fault, Refusal := Refusal, step := stepIn cfg, reset := State.reset }

end Sys2Proof.Machine
end

