-- ==== Sys2Proof/Safety.lean ====
section
/-! DEFINITION. The terms claims are stated in: the invariant of every state the block can reach
(10_state.md R18, R20 to R22), fault-free runs (60_exceptions.md R210), what one state keeps of
another, and the tree measures of 43_tree.md R147 and 44_codetable.md R164. -/

namespace Sys2Proof.Machine

/-! ## Trees -/

/-- The number of nodes of a tree, leaves included (R18, R20). -/
def HuffTree.size : HuffTree → Nat
  | .leaf _ _ => 1
  | .node _ _ l r => l.size + r.size + 1

/-- The leaves of a tree from left to right, each with its weight, symbol and depth below `d`. -/
def HuffTree.leavesFrom : HuffTree → Nat → List (Weight × Symbol × Nat)
  | .leaf w s, d => [(w, s, d)]
  | .node _ _ l r, d => l.leavesFrom (d + 1) ++ r.leavesFrom (d + 1)

/-- The leaves of a tree from left to right, with their depths (R18). -/
def HuffTree.leaves (t : HuffTree) : List (Weight × Symbol × Nat) := t.leavesFrom 0

/-- The symbols of the leaves from left to right. -/
def HuffTree.symbols : HuffTree → List Symbol
  | .leaf _ s => [s]
  | .node _ _ l r => l.symbols ++ r.symbols

/-- The paths of the leaves from left to right below `path`: '0' left, '1' right
(30_encoding.md R73). -/
def HuffTree.pathsFrom : HuffTree → BitString → List (Symbol × BitString)
  | .leaf _ s, path => [(s, path)]
  | .node _ _ l r, path => l.pathsFrom (path ++ [false]) ++ r.pathsFrom (path ++ [true])

/-- R18 (a) and (b): a Node's weight is the exact sum of its children's weights and its tiebreak
symbol is the lesser of theirs, all the way down. -/
def HuffTree.ok : HuffTree → Bool
  | .leaf _ _ => true
  | .node w t l r => decide (w.toNat = l.weight.toNat + r.weight.toNat) &&
      decide (t.toNat = min l.rep.toNat r.rep.toNat) && l.ok && r.ok

/-- The key of an entry: all that `tree_lt` reads (00_scope.md, glossary). -/
def HuffTree.key (t : HuffTree) : Weight × Symbol := (t.weight, t.rep)

/-- A list is ascending when no adjacent pair is out of order (42_plist.md R113). -/
def Ascending (list : List HuffTree) : Prop :=
  ∀ k (h : k + 1 < list.length), treeLt list[k + 1] list[k] = false

/-! ## States -/

/-- What holds at reset and after every step of a configuration: R21 (LEN), R18 (trees, with weights of
`W` bits), R20 (nodes), R13 (counts of `W` bits), R15 (codewords), R22 (pending bits). -/
structure State.InvIn (cfg : Config) (s : State) : Prop where
  listLength : s.pl.length ≤ cfg.listCap
  listTrees : ∀ t ∈ s.pl, t.ok = true
  listWeights : ∀ t ∈ s.pl, t.weight.toNat < 2 ^ cfg.w
  listNodes : (s.pl.map HuffTree.size).sum = s.nnodes.toNat
  nodeBudget : s.nnodes.toNat ≤ cfg.nodeCap
  latchedTree : ∀ t ∈ s.tree, t.ok = true ∧ t.size ≤ s.nnodes.toNat
  latchedWeight : ∀ t ∈ s.tree, t.weight.toNat < 2 ^ cfg.w
  countBits : ∀ a : Symbol, (readSym s.freq a).toNat < 2 ^ cfg.w
  codeLength : ∀ a : Symbol, (readSym s.ct a).length ≤ Config.codeMax
  pendingBits : s.acc.toNat < 2 ^ s.nb.toNat

/-- The invariant on this hardware. -/
abbrev State.Inv (s : State) : Prop := s.InvIn Config.hardware

/-- The seven pieces of data state that a fault leaves as they were (60_exceptions.md R198 (a)). -/
def SameData (s t : State) : Prop :=
  t.freq = s.freq ∧ t.pl = s.pl ∧ t.tree = s.tree ∧ t.nnodes = s.nnodes ∧ t.ct = s.ct ∧
    t.acc = s.acc ∧ t.nb = s.nb

/-- A command can be executed safely when no fault is recorded (R210) and the invariant holds. -/
def SafeState (s : State) : Prop := s.Inv ∧ s.fault = none

/-- A run of commands in which no fault is latched at the start or after any command (R210). -/
def FaultFree : List Instr → State → Prop
  | [], s => s.fault = none
  | i :: is, s => s.fault = none ∧ ∀ t, exec i s = .next t → FaultFree is t

/-- The pending bits as a bit-string, first-appended first (R22). -/
def State.pending (s : State) : BitString :=
  (List.range s.nb.toNat).map fun k => s.acc.getLsbD (s.nb.toNat - 1 - k)

/-- Every piece of state has the value of the table of 10_state.md R29. -/
def AtReset (s : State) : Prop :=
  (∀ a : Symbol, readSym s.freq a = 0) ∧ (∀ a : Symbol, readSym s.ct a = []) ∧ s.pl = [] ∧
    s.tree = none ∧ s.nnodes = 0 ∧ s.acc = 0 ∧ s.nb = 0 ∧ s.fault = none

/-- The state `t` is `s` after the bits `b` were appended (45_bitpack.md R175): of the pending bits
followed by `b`, the whole groups of eight have left as bytes and the rest is pending; only ACC, NB
and OUT differ. -/
def Appended (s : State) (b : BitString) (t : State) : Prop :=
  let all := s.pending ++ b
  t.out = s.out ++ pack (all.take (8 * (all.length / 8))) ∧
    t.pending = all.drop (8 * (all.length / 8)) ∧ t.acc.toNat < 2 ^ t.nb.toNat ∧
    t = { s with acc := t.acc, nb := t.nb, out := t.out }

/-- The causes of the faults in a configuration, by the table of 60_exceptions.md R195 and the order of
checks of R207: when the command `i` in the state `s` raises the fault. BUILD makes two or more leaves when
two symbols are counted, or at every count with `ZERO_LEAVES` = 1 (R202, R146). The row IllegalCommand is
about terms BITS that no word decodes to (DESIGN CHOICE, log entry 7). -/
def FaultCauseIn (cfg : Config) (i : Instr) (s : State) : FaultKind → Prop
  | .underflow => i = .co1 ∧ s.pl.length < 2
  | .index =>
    (∃ k, (i = .plrdw k ∨ i = .plrdk k) ∧ s.pl.length ≤ k.toNat) ∨
      ∃ k j, i = .pllt k j ∧ (s.pl.length ≤ k.toNat ∨ s.pl.length ≤ j.toNat)
  | .illegalCommand => i.wfIn cfg = false
  | .countOverflow =>
    ∃ v, i = .cnt v ∧ ∃ a : Symbol, v.toNat = a.toNat ∧ (readSym s.freq a).toNat = 2 ^ cfg.w - 1
  | .weightOverflow =>
    (i = .co1 ∧ s.nnodes.toNat ≠ cfg.nodeCap ∧
        ∃ a b rest, s.pl = a :: b :: rest ∧ 2 ^ cfg.w ≤ a.weight.toNat + b.weight.toNat) ∨
      (i = .coall ∧ s.nnodes.toNat + (s.pl.length - 1) ≤ cfg.nodeCap ∧ 2 ≤ s.pl.length ∧
        2 ^ cfg.w ≤ (s.pl.map fun t => t.weight.toNat).sum) ∨
      (i = .build ∧
        (∃ a b, a ≠ b ∧
          (cfg.zeroLeaves = true ∨ (readSym s.freq a ≠ 0 ∧ readSym s.freq b ≠ 0))) ∧
        2 ^ cfg.w ≤ (allSymbols.map fun a => (readSym s.freq a).toNat).sum)
  | .listFull => (∃ a w, i = .plapp a w ∨ i = .plins a w) ∧ s.pl.length = cfg.listCap
  | .arenaFull =>
    ((∃ a w, i = .plapp a w ∨ i = .plins a w) ∧ s.pl.length ≠ cfg.listCap ∧
        s.nnodes.toNat = cfg.nodeCap) ∨
      (i = .co1 ∧ 2 ≤ s.pl.length ∧ s.nnodes.toNat = cfg.nodeCap) ∨
      (i = .coall ∧ cfg.nodeCap < s.nnodes.toNat + (s.pl.length - 1))

/-- The causes of the faults on this hardware. -/
abbrev FaultCause (i : Instr) (s : State) : FaultKind → Prop := FaultCauseIn Config.hardware i s

end Sys2Proof.Machine
end

