-- ==== Sys2Proof/Certificates/Slice0/Obligations.lean ====
section
/-! DEFINITION. The statements about HUFFCORE for the provers. Each follows numbered rules of spec/. -/

open Sys2Proof Sys2Proof.Machine

/-! ## Encoding (30_encoding.md) -/

/-- R80: the worked encodings decode to the commands they stand for. -/
def Obligations.WorkedEncodings : Prop :=
  decode 0x00000000 = some .nop ∧ decode 0x32000000 = some .build ∧
    decode 0x11000061 = some (.cnt 97) ∧ decode 0x5001F600 = some (.enc 128512) ∧
    decode 0x12000041 = some (.frd 65) ∧ decode 0x23610001 = some (.plins 97 1) ∧
    decode 0x26000002 = some (.plrdw 2) ∧ decode 0x28001000 = some (.pllt 0 1) ∧
    decode 0x42000761 = some (.ctrd 97 7) ∧ decode 0x510901FF = some (.bits 9 0x1FF) ∧
    decode 0x51110000 = none ∧ decode 0x32000001 = none

/-- Decoding the word of a well-formed command gives the command back, with every operand at every
value its field admits (R61, R62, R63, R66). -/
def Obligations.DecodeOfEncode : Prop := ∀ i : Instr, i.wf = true → decode (encode i) = some i

/-- A word that decodes is the word of the command it decodes to, and that command is well formed: no
bit of a legal word is dropped (R61 to R66). -/
def Obligations.EncodeOfDecode : Prop :=
  ∀ (w : Word) (i : Instr), decode w = some i → i.wf = true ∧ encode i = w

/-- R64: a word is illegal in exactly three cases: the opcode byte is not one of the 26, a reserved
field of its format is not zero, or BITS asks for more than 16 bits. -/
def Obligations.IllegalWords : Prop :=
  ∀ w : Word, decode w = none ↔
    (w.extractLsb' 24 8 ∉
        ([0x00, 0x01, 0x02, 0x03, 0x10, 0x11, 0x12, 0x20, 0x21, 0x22, 0x23, 0x24, 0x25, 0x26, 0x27, 0x28] ++
          [0x30, 0x31, 0x32, 0x40, 0x41, 0x42, 0x50, 0x51, 0x52, 0x53] : List Byte)) ∨
      (w.extractLsb' 24 8 ∈
          ([0x00, 0x01, 0x02, 0x03, 0x10, 0x20, 0x21, 0x24, 0x25, 0x30, 0x31, 0x32, 0x40, 0x52, 0x53] :
            List Byte) ∧ w.extractLsb' 0 24 ≠ 0) ∨
      (w.extractLsb' 24 8 ∈ ([0x12, 0x41] : List Byte) ∧ w.extractLsb' 8 16 ≠ 0) ∨
      (w.extractLsb' 24 8 ∈ ([0x26, 0x27] : List Byte) ∧ w.extractLsb' 12 12 ≠ 0) ∨
      (w.extractLsb' 24 8 = 0x42 ∧ w.extractLsb' 11 13 ≠ 0) ∨
      (w.extractLsb' 24 8 = 0x51 ∧ w.extractLsb' 21 3 ≠ 0) ∨
      (w.extractLsb' 24 8 = 0x51 ∧ 16 < (w.extractLsb' 16 5).toNat)

/-! ## Reset, and the step (10_state.md R29, R32; 70_reset_and_hazards.md R225, R226) -/

/-- R29: after hardware reset, and after the RST command, every piece of state has the value of the
table; bytes and responses that have left stay, and a run starts with empty traces. -/
def Obligations.ResetValues : Prop :=
  (AtReset State.reset ∧ State.reset.out = [] ∧ State.reset.rsp = []) ∧
    (∀ (s : State) (rest : List HostEvent), ∃ t,
      step (s.setInput (.resetPin :: rest)) = .next t ∧ AtReset t ∧ t.out = s.out ∧
        t.rsp = s.rsp ∧ t.input = rest) ∧
    ∀ s : State, ∃ t, exec .rst s = .next t ∧ AtReset t ∧ t.out = s.out ∧
      t.rsp = s.rsp ++ [⟨.ok, 0⟩] ∧ t.input = s.input

/-- R226: the RST command leaves the same state as hardware reset, and gets a response (OK, 0). -/
def Obligations.RstLikeHardwareReset : Prop :=
  ∀ (s : State) (rest : List HostEvent), ∃ t,
    step (s.setInput (.resetPin :: rest)) = .next t ∧ t.rsp = s.rsp ∧
      exec .rst (s.setInput rest) = .next { t with rsp := s.rsp ++ [⟨.ok, 0⟩] }

/-- A step runs the decoded instruction: when the word the host presents decodes to `i`, the step is
`exec i` with that word taken from the host's events (R26, R66). -/
def Obligations.StepRunsDecoded : Prop :=
  ∀ (s : State) (w : Word) (rest : List HostEvent) (i : Instr), decode w = some i →
    step (s.setInput (.command w :: rest)) = exec i (s.setInput rest)

/-- R200, R198: while no fault is latched, a word that does not decode latches IllegalCommand, is
answered with code 3 and the word, and changes nothing else. -/
def Obligations.IllegalWordFaults : Prop :=
  ∀ (s : State) (w : Word) (rest : List HostEvent), s.fault = none → decode w = none →
    step (s.setInput (.command w :: rest)) =
      .next { s with
        fault := some .illegalCommand, rsp := s.rsp ++ [⟨.fault .illegalCommand, w⟩], input := rest }

/-- R199, R207: while FAULT is not 0, the four exact words of NOP, RST, STAT and ERRACK execute, and
every other word, legal or not, is refused: the response is (8, the word), and nothing else changes. -/
def Obligations.HaltedRefuses : Prop :=
  ∀ (s : State) (w : Word) (rest : List HostEvent), s.fault ≠ none →
    (w ∉ ([0x00000000, 0x01000000, 0x02000000, 0x03000000] : List Word) →
      step (s.setInput (.command w :: rest)) =
        .next { s with rsp := s.rsp ++ [⟨.halted, w⟩], input := rest }) ∧
    ∀ i, (w, i) ∈ ([(0x00000000, .nop), (0x01000000, .rst), (0x02000000, .stat),
        (0x03000000, .errack)] : List (Word × Instr)) →
      step (s.setInput (.command w :: rest)) = exec i (s.setInput rest)

/-- R70, R28, R32: in every reachable state every accepted word gets exactly one response, after at
most 32 bytes that are added at the end of OUT; when the code is not OK the data is the word. -/
def Obligations.OneResponsePerCommand : Prop :=
  ∀ (s : State) (w : Word) (rest : List HostEvent), s.Inv → ∃ t r bytes,
    step (s.setInput (.command w :: rest)) = .next t ∧ t.input = rest ∧ t.rsp = s.rsp ++ [r] ∧
      t.out = s.out ++ bytes ∧ bytes.length ≤ 32 ∧ (r.code = .ok ∨ (r.data = w ∧ bytes = []))

/-! ## Faults (60_exceptions.md) -/

/-- R198: when a command word raises a fault, no data state changes and no byte leaves; FAULT gets the
fault's code, and the response is that code and the command word. -/
def Obligations.FaultsArePrecise : Prop :=
  ∀ (s t : State) (w : Word) (rest : List HostEvent) (k : FaultKind), s.fault = none →
    step (s.setInput (.command w :: rest)) = .next t → t.fault = some k →
    t = { s with fault := some k, rsp := s.rsp ++ [⟨.fault k, w⟩], input := rest }

/-- R195 to R197, R200 to R204, R207: every command raises exactly the faults of its row, in the order of
checks. The row IllegalCommand is the model's choice (log entry 7, DESIGN CHOICE): it concerns terms BITS
with n above 16, which no word decodes to; illegal words are in IllegalWordFaults. -/
def Obligations.FaultCauses : Prop :=
  ∀ (i : Instr) (s : State), s.fault = none →
    ∃ t, exec i s = .next t ∧ ∀ k, t.fault = some k ↔ FaultCause i s k

/-- R210: a latched fault stays until ERRACK or RST, whatever word the host sends. -/
def Obligations.FaultKeptUntilAcknowledged : Prop :=
  ∀ (s t : State) (w : Word) (rest : List HostEvent) (k : FaultKind), s.fault = some k →
    step (s.setInput (.command w :: rest)) = .next t →
    (w ≠ 0x01000000 → w ≠ 0x03000000 → t.fault = some k) ∧
      (w = 0x01000000 ∨ w = 0x03000000 → t.fault = none)

/-- R209, R93: after a faulting command, ERRACK gives back the state before it, responses apart. -/
def Obligations.AcknowledgeRestores : Prop :=
  ∀ (i : Instr) (s t : State) (k : FaultKind), s.fault = none → exec i s = .next t →
    t.fault = some k →
    exec .errack t = .next { s with rsp := s.rsp ++ [⟨.fault k, encode i⟩, ⟨.ok, 0⟩] }

/-- R195, R70, R23, R206: the codes of the seven faults are 1 to 7 in the order of the table; a response
carries 0 for OK, a fault's own code, or 8 for Halted; FAULT shows 0 or the code of the latched fault,
`fault_o` is 1 exactly while FAULT is not 0, and the response port shows the last response. -/
def Obligations.FaultOutput : Prop :=
  ([.underflow, .index, .illegalCommand, .countOverflow, .weightOverflow, .listFull,
      .arenaFull] : List FaultKind).map FaultKind.code = [1, 2, 3, 4, 5, 6, 7] ∧
  (RspCode.ok.code = 0 ∧ (∀ k, (RspCode.fault k).code = k.code) ∧ RspCode.halted.code = 8) ∧
  ∀ s : State, (s.fault = none → s.faultReg = 0) ∧ (∀ k, s.fault = some k → s.faultReg = k.code) ∧
    (s.faultO = true ↔ s.fault ≠ none) ∧ (s.rsp = [] → s.rspPort = none) ∧
    ∀ earlier r, s.rsp = earlier ++ [r] → s.rspPort = some (r.code.code, r.data)

/-! ## Which commands write what (10_state.md R13, R15, R19 to R22) -/

/-- R13, R15: FREQ changes only by FCLR, CNT and RST; CT only by CTBLD and RST. -/
def Obligations.TableWriters : Prop :=
  ∀ (i : Instr) (s t : State), exec i s = .next t →
    (t.freq ≠ s.freq → i = .fclr ∨ (∃ v, i = .cnt v) ∨ i = .rst) ∧
      (t.ct ≠ s.ct → i = .ctbld ∨ i = .rst)

/-- R19, R20, R21: which commands change PL, TREE and NNODES. -/
def Obligations.ListAndTreeWriters : Prop :=
  ∀ (i : Instr) (s t : State), exec i s = .next t →
    (t.pl ≠ s.pl → i ∈ ([.plclr, .base, .sort, .co1, .coall, .build, .rst] : List Instr) ∨
      ∃ a w, i = .plapp a w ∨ i = .plins a w) ∧
    (t.tree ≠ s.tree → i ∈ ([.plclr, .base, .coall, .build, .rst] : List Instr)) ∧
    (t.nnodes ≠ s.nnodes → i ∈ ([.plclr, .base, .co1, .coall, .build, .rst] : List Instr) ∨
      ∃ a w, i = .plapp a w ∨ i = .plins a w)

/-- R22, R28: ACC and NB change only by ENC, BITS, FLUSH, BPCLR and RST; bytes leave only by ENC, BITS
and FLUSH, always at the end of OUT. -/
def Obligations.PackerWriters : Prop :=
  ∀ (i : Instr) (s t : State), exec i s = .next t →
    ((t.acc ≠ s.acc ∨ t.nb ≠ s.nb) → i ∈ ([.flush, .bpclr, .rst] : List Instr) ∨
      (∃ v, i = .enc v) ∨ ∃ n pat, i = .bits n pat) ∧
    (t.out ≠ s.out → i = .flush ∨ (∃ v, i = .enc v) ∨ ∃ n pat, i = .bits n pat) ∧
    s.out <+: t.out

/-- R48: the read commands and NOP change no state when they end normally. -/
def Obligations.ReadsHaveNoSideEffects : Prop :=
  ∀ (i : Instr) (s t : State) (d : Word),
    (i = .nop ∨ i = .stat ∨ i = .pllen ∨ (∃ a, i = .frd a) ∨ (∃ k, i = .plrdw k) ∨
      (∃ k, i = .plrdk k) ∨ (∃ k j, i = .pllt k j) ∨ (∃ a, i = .ctlen a) ∨ ∃ a c, i = .ctrd a c) →
    exec i s = .next t → t.rsp = s.rsp ++ [⟨.ok, d⟩] → t = { s with rsp := t.rsp }

/-- R27, R28: no command reads the traces, and none sees the events the host has still to send: with
other traces and events a command has the same effect, emits the same bytes and responds alike. -/
def Obligations.TracesAreNotRead : Prop :=
  ∀ (i : Instr) (s : State) (o : List Byte) (r : List Response) (es : List HostEvent),
    ∃ t bytes resp, exec i s = .next t ∧ t.out = s.out ++ bytes ∧ t.rsp = s.rsp ++ [resp] ∧
      exec i { s with out := o, rsp := r, input := es } =
        .next { t with out := o ++ bytes, rsp := r ++ [resp], input := es }

/-! ## Control commands (40_control.md) -/

/-- R90, R93: in every state, halted or not, NOP responds (OK, 0) and changes nothing, and ERRACK
clears FAULT and nothing else. -/
def Obligations.NopAndErrack : Prop :=
  (encode .nop = 0x00000000 ∧ encode .errack = 0x03000000) ∧
  ∀ s : State, exec .nop s = .next { s with rsp := s.rsp ++ [⟨.ok, 0⟩] } ∧
    exec .errack s = .next { s with fault := none, rsp := s.rsp ++ [⟨.ok, 0⟩] }

/-- R92, R24: in every state STAT changes nothing and answers STATUS: FAULT in 3:0, TV in 4, NB in
7:5, ACC in 14:8, zeros above. -/
def Obligations.StatReadsStatus : Prop :=
  encode .stat = 0x02000000 ∧
  ∀ s : State, ∃ d : Word, exec .stat s = .next { s with rsp := s.rsp ++ [⟨.ok, d⟩] } ∧
    d.extractLsb' 0 4 = s.faultReg ∧ (d.getLsbD 4 = true ↔ s.tree ≠ none) ∧
    d.extractLsb' 5 3 = s.nb ∧ d.extractLsb' 8 7 = s.acc ∧ d.extractLsb' 15 17 = 0

/-! ## Frequency counter (41_freq.md) -/

/-- R100, R102: FCLR makes every count 0 and touches nothing else; FRD answers the count. -/
def Obligations.ClearAndReadCounts : Prop :=
  (encode .fclr = 0x10000000 ∧ ∀ a, (encode (.frd a)).toNat = 0x12000000 + a.toNat) ∧
  ∀ s : State, s.fault = none →
    (∃ f : FreqTable, (∀ a, readSym f a = 0) ∧
      exec .fclr s = .next { s with freq := f, rsp := s.rsp ++ [⟨.ok, 0⟩] }) ∧
    ∀ a, exec (.frd a) s = .next { s with rsp := s.rsp ++ [⟨.ok, readSym s.freq a⟩] }

/-- R101: an element above 255 is ignored; the count of any other element goes up by one and nothing
else changes; a count of `2^32 − 1` raises CountOverflow and keeps its value. -/
def Obligations.CountElement : Prop :=
  (∀ v, (encode (.cnt v)).toNat = 0x11000000 + v.toNat) ∧
  ∀ (v : InputElem) (s : State), s.fault = none →
    (255 < v.toNat → exec (.cnt v) s = .next { s with rsp := s.rsp ++ [⟨.ok, 0⟩] }) ∧
    ∀ a : Symbol, v.toNat = a.toNat →
      ((readSym s.freq a).toNat < 2 ^ 32 - 1 → ∃ f : FreqTable,
        exec (.cnt v) s = .next { s with freq := f, rsp := s.rsp ++ [⟨.ok, 0⟩] } ∧
        (readSym f a).toNat = (readSym s.freq a).toNat + 1 ∧
        ∀ b, b ≠ a → readSym f b = readSym s.freq b) ∧
      ((readSym s.freq a).toNat = 2 ^ 32 - 1 → exec (.cnt v) s = .next { s with
        fault := some .countOverflow, rsp := s.rsp ++ [⟨.fault .countOverflow, encode (.cnt v)⟩] })

/-- R103 (a), (b): after FCLR and one CNT for each element of a text shorter than `2^32`, no fault is
latched, every count is the number of occurrences, their sum is the number of elements that are at most
255, and nothing but FREQ and RSP has changed. -/
def Obligations.CountsOfAText : Prop :=
  ∀ (text : List InputElem) (s : State), s.fault = none → text.length < 2 ^ 32 →
    ∃ t, execAll (.fclr :: text.map .cnt) s = .next t ∧
      t = { s with freq := t.freq, rsp := t.rsp } ∧
      (∀ a : Symbol, (readSym t.freq a).toNat = text.countP fun v => v.toNat == a.toNat) ∧
      (allSymbols.map fun a => (readSym t.freq a).toNat).sum = text.countP fun v => v.toNat ≤ 255

/-! ## Priority list (42_plist.md) -/

/-- R110: `tree_lt` compares the weights, then the representative symbols; on keys it is irreflexive
and transitive, and any two different keys are ordered one way. -/
def Obligations.TreeOrder : Prop :=
  (∀ x y : HuffTree, treeLt x y = true ↔ x.weight.toNat < y.weight.toNat ∨
    (x.weight.toNat = y.weight.toNat ∧ x.rep.toNat < y.rep.toNat)) ∧
  (∀ x, treeLt x x = false) ∧
  (∀ x y z, treeLt x y = true → treeLt y z = true → treeLt x z = true) ∧
  ∀ x y : HuffTree, (treeLt x y = false ∧ treeLt y x = false) ↔ x.key = y.key

/-- R115: PLCLR empties the list, forgets the tree and gives the nodes back, and touches nothing else. -/
def Obligations.ClearList : Prop :=
  encode .plclr = 0x20000000 ∧
  ∀ s : State, s.fault = none → exec .plclr s =
    .next { s with pl := [], tree := none, nnodes := 0, rsp := s.rsp ++ [⟨.ok, 0⟩] }

/-- R114: BASE makes one leaf for each symbol whose count is not zero, in ascending symbol order, with
its count for weight, clears TREE, counts the leaves as nodes, and touches nothing else. -/
def Obligations.BaseList : Prop :=
  encode .base = 0x21000000 ∧
  ∀ s : State, s.fault = none → ∃ (l : List HuffTree) (n : BitVec 9),
    exec .base s =
      .next { s with pl := l, tree := none, nnodes := n, rsp := s.rsp ++ [⟨.ok, 0⟩] } ∧
    n.toNat = l.length ∧
    (∀ t ∈ l, ∃ a, t = .leaf (readSym s.freq a) a ∧ readSym s.freq a ≠ 0) ∧
    (∀ a, readSym s.freq a ≠ 0 → .leaf (readSym s.freq a) a ∈ l) ∧
    l.Pairwise fun x y => x.rep.toNat < y.rep.toNat

/-- R116, R207: a full list raises ListFull, else 511 nodes raise ArenaFull; else PLAPP puts the leaf at
the tail and counts one node more. Nothing else changes. -/
def Obligations.AppendLeaf : Prop :=
  (∀ a w, (encode (.plapp a w)).toNat = 0x22000000 + a.toNat * 2 ^ 16 + w.toNat) ∧
  ∀ (a : Symbol) (w : BitVec 16) (s : State), s.fault = none →
    (s.pl.length = 256 → exec (.plapp a w) s = .next { s with
      fault := some .listFull, rsp := s.rsp ++ [⟨.fault .listFull, encode (.plapp a w)⟩] }) ∧
    (s.pl.length ≠ 256 → s.nnodes.toNat = 511 → exec (.plapp a w) s = .next { s with
      fault := some .arenaFull, rsp := s.rsp ++ [⟨.fault .arenaFull, encode (.plapp a w)⟩] }) ∧
    (s.pl.length ≠ 256 → s.nnodes.toNat ≠ 511 → ∃ (x : Weight) (n : BitVec 9),
      exec (.plapp a w) s =
        .next { s with pl := s.pl ++ [.leaf x a], nnodes := n, rsp := s.rsp ++ [⟨.ok, 0⟩] } ∧
      x.toNat = w.toNat ∧ n.toNat = s.nnodes.toNat + 1)

/-- R117, R111, R207: a full list raises ListFull, else 511 nodes raise ArenaFull; else PLINS puts the
leaf before the first entry it precedes, and at the end if there is none, on any list, ascending or
not, and counts one node more. Nothing else changes. -/
def Obligations.InsertLeaf : Prop :=
  (∀ a w, (encode (.plins a w)).toNat = 0x23000000 + a.toNat * 2 ^ 16 + w.toNat) ∧
  ∀ (a : Symbol) (w : BitVec 16) (s : State), s.fault = none →
    (s.pl.length = 256 → exec (.plins a w) s = .next { s with
      fault := some .listFull, rsp := s.rsp ++ [⟨.fault .listFull, encode (.plins a w)⟩] }) ∧
    (s.pl.length ≠ 256 → s.nnodes.toNat = 511 → exec (.plins a w) s = .next { s with
      fault := some .arenaFull, rsp := s.rsp ++ [⟨.fault .arenaFull, encode (.plins a w)⟩] }) ∧
    (s.pl.length ≠ 256 → s.nnodes.toNat ≠ 511 → ∃ (x : Weight) (n : BitVec 9) (p : Nat),
      exec (.plins a w) s = .next { s with
        pl := s.pl.take p ++ [.leaf x a] ++ s.pl.drop p, nnodes := n,
        rsp := s.rsp ++ [⟨.ok, 0⟩] } ∧
      x.toNat = w.toNat ∧ n.toNat = s.nnodes.toNat + 1 ∧ p ≤ s.pl.length ∧
      (∀ k (h : k < s.pl.length), k < p → treeLt (.leaf x a) s.pl[k] = false) ∧
      ∀ h : p < s.pl.length, treeLt (.leaf x a) s.pl[p] = true)

/-- R118, R112, R113 (b): SORT inserts the entries one by one from the last to the first, which makes
the list ascending and keeps exactly its entries; it touches nothing else. -/
def Obligations.SortList : Prop :=
  encode .sort = 0x24000000 ∧
  ∀ s : State, s.fault = none → ∃ l : List HuffTree,
    exec .sort s = .next { s with pl := l, rsp := s.rsp ++ [⟨.ok, 0⟩] } ∧
      l = s.pl.foldr (fun x sorted => insertTree sorted x) [] ∧ Ascending l ∧ l.Perm s.pl

/-- R113 (d): entries of equal key come out of SORT in the reverse of their input order. -/
def Obligations.SortReversesEqualKeys : Prop :=
  ∀ (s t : State) (key : Weight × Symbol), s.fault = none → exec .sort s = .next t →
    t.pl.filter (fun x => x.key == key) = (s.pl.filter fun x => x.key == key).reverse

/-- R113 (c): if all keys are different, SORT gives the one arrangement of the entries in increasing
key order, whatever the input order was. -/
def Obligations.SortOfDistinctKeys : Prop :=
  ∀ s s' t t' : State, s.fault = none → s'.fault = none → (s.pl.map HuffTree.key).Nodup →
    s.pl.Perm s'.pl → exec .sort s = .next t → exec .sort s' = .next t' →
    t.pl = t'.pl ∧ t.pl.Perm s.pl ∧ t.pl.Pairwise fun x y => treeLt x y = true

/-- R113 (a), R142: PLINS, SORT, CO1 and COALL leave an ascending list ascending. -/
def Obligations.AscendingKept : Prop :=
  ∀ (i : Instr) (s t : State), (i = .sort ∨ i = .co1 ∨ i = .coall ∨ ∃ a w, i = .plins a w) →
    Ascending s.pl → exec i s = .next t → Ascending t.pl

/-- R119, R24: PLLEN answers LISTINFO and changes nothing: LEN in 8:0, NNODES in 24:16, zeros
elsewhere. -/
def Obligations.ListInfo : Prop :=
  encode .pllen = 0x25000000 ∧
  ∀ s : State, s.fault = none → s.pl.length ≤ 256 → ∃ d : Word,
    exec .pllen s = .next { s with rsp := s.rsp ++ [⟨.ok, d⟩] } ∧
    (d.extractLsb' 0 9).toNat = s.pl.length ∧ d.extractLsb' 9 7 = 0 ∧
    d.extractLsb' 16 9 = s.nnodes ∧ d.extractLsb' 25 7 = 0

/-- R120, R121: PLRDW answers the weight of an entry, PLRDK its kind in bit 8 and its representative
symbol in 7:0; beyond the list both raise Index. -/
def Obligations.ReadEntry : Prop :=
  (∀ k, (encode (.plrdw k)).toNat = 0x26000000 + k.toNat ∧
    (encode (.plrdk k)).toNat = 0x27000000 + k.toNat) ∧
  ∀ (k : ListIndex) (s : State), s.fault = none →
    (∀ h : k.toNat < s.pl.length,
      exec (.plrdw k) s = .next { s with rsp := s.rsp ++ [⟨.ok, s.pl[k.toNat].weight⟩] } ∧
      ∃ d : Word, exec (.plrdk k) s = .next { s with rsp := s.rsp ++ [⟨.ok, d⟩] } ∧
        d.extractLsb' 0 8 = s.pl[k.toNat].rep ∧
        (d.getLsbD 8 = true ↔ ∃ w a l r, s.pl[k.toNat] = .node w a l r) ∧ d.extractLsb' 9 23 = 0) ∧
    (s.pl.length ≤ k.toNat → ∀ i, (i = .plrdw k ∨ i = .plrdk k) → exec i s =
      .next { s with fault := some .index, rsp := s.rsp ++ [⟨.fault .index, encode i⟩] })

/-- R122, R110: PLLT answers 1 when the first entry precedes the second by weight or, at equal weights,
by representative symbol, and 0 otherwise; an index beyond the list raises Index. -/
def Obligations.CompareEntries : Prop :=
  (∀ i j, (encode (.pllt i j)).toNat = 0x28000000 + j.toNat * 2 ^ 12 + i.toNat) ∧
  ∀ (i j : ListIndex) (s : State), s.fault = none →
    (∀ (hi : i.toNat < s.pl.length) (hj : j.toNat < s.pl.length), ∃ d : Word,
      exec (.pllt i j) s = .next { s with rsp := s.rsp ++ [⟨.ok, d⟩] } ∧
      (d = 0 ∨ d = 1) ∧
      (d = 1 ↔ s.pl[i.toNat].weight.toNat < s.pl[j.toNat].weight.toNat ∨
        (s.pl[i.toNat].weight.toNat = s.pl[j.toNat].weight.toNat ∧
          s.pl[i.toNat].rep.toNat < s.pl[j.toNat].rep.toNat))) ∧
    (s.pl.length ≤ i.toNat ∨ s.pl.length ≤ j.toNat → exec (.pllt i j) s = .next { s with
      fault := some .index, rsp := s.rsp ++ [⟨.fault .index, encode (.pllt i j)⟩] })

/-! ## Tree builder (43_tree.md) -/

/-- R143, R142, R140: CO1 raises Underflow on fewer than two entries, else ArenaFull at 511 nodes, else
WeightOverflow when the two front weights reach `2^32`; else it takes the two front entries, whether or
not the list is ascending, makes a Node of their exact sum and lesser representative symbol with the
first on the left, and inserts it. Nothing else changes. -/
def Obligations.CoalesceOnce : Prop :=
  encode .co1 = 0x30000000 ∧
  ∀ s : State, s.fault = none →
    (s.pl.length < 2 → exec .co1 s = .next { s with
      fault := some .underflow, rsp := s.rsp ++ [⟨.fault .underflow, encode .co1⟩] }) ∧
    (2 ≤ s.pl.length → s.nnodes.toNat = 511 → exec .co1 s = .next { s with
      fault := some .arenaFull, rsp := s.rsp ++ [⟨.fault .arenaFull, encode .co1⟩] }) ∧
    ∀ a b rest, s.pl = a :: b :: rest → s.nnodes.toNat ≠ 511 →
      (2 ^ 32 ≤ a.weight.toNat + b.weight.toNat → exec .co1 s = .next { s with
        fault := some .weightOverflow, rsp := s.rsp ++ [⟨.fault .weightOverflow, encode .co1⟩] }) ∧
      (a.weight.toNat + b.weight.toNat < 2 ^ 32 → ∃ (w : Weight) (t : Symbol) (n : BitVec 9),
        exec .co1 s = .next { s with
          pl := insertTree rest (.node w t a b), nnodes := n, rsp := s.rsp ++ [⟨.ok, 0⟩] } ∧
        w.toNat = a.weight.toNat + b.weight.toNat ∧ t.toNat = min a.rep.toNat b.rep.toNat ∧
        n.toNat = s.nnodes.toNat + 1)

/-- R145, R144: COALL raises ArenaFull when its merges would pass 511 nodes, else WeightOverflow when
two or more entries sum to `2^32`; else it does one coalescing step less than the list has entries,
counts as many nodes, and latches the remaining entry. Nothing else changes. -/
def Obligations.CoalesceAll : Prop :=
  encode .coall = 0x31000000 ∧
  ∀ s : State, s.fault = none →
    (511 < s.nnodes.toNat + (s.pl.length - 1) → exec .coall s = .next { s with
      fault := some .arenaFull, rsp := s.rsp ++ [⟨.fault .arenaFull, encode .coall⟩] }) ∧
    (s.nnodes.toNat + (s.pl.length - 1) ≤ 511 →
      (2 ≤ s.pl.length → 2 ^ 32 ≤ (s.pl.map fun t => t.weight.toNat).sum →
        exec .coall s = .next { s with
          fault := some .weightOverflow,
          rsp := s.rsp ++ [⟨.fault .weightOverflow, encode .coall⟩] }) ∧
      (s.pl.length < 2 ∨ (s.pl.map fun t => t.weight.toNat).sum < 2 ^ 32 →
        ∃ (l : List HuffTree) (n : BitVec 9),
          exec .coall s =
            .next { s with pl := l, nnodes := n, tree := l.head?, rsp := s.rsp ++ [⟨.ok, 0⟩] } ∧
          l = coalesceOnce^[s.pl.length - 1] s.pl ∧ (l = [] ↔ s.pl = []) ∧ l.length ≤ 1 ∧
          n.toNat = s.nnodes.toNat + (s.pl.length - 1)))

/-- R147 (a), (c): the tree COALL latches weighs the sum of the entries it started from, and its leaves
are their leaves, each once, with their weights and symbols. -/
def Obligations.CoalescedTree : Prop :=
  ∀ (s t : State) (r : HuffTree), s.fault = none → exec .coall s = .next t → t.fault = none →
    t.tree = some r →
    r.weight.toNat = (s.pl.map fun x => x.weight.toNat).sum ∧
      (r.leaves.map fun x => (x.1, x.2.1)).Perm
        (s.pl.flatMap fun y => y.leaves.map fun x => (x.1, x.2.1))

/-- R146: BUILD is BASE, SORT and COALL as one command: the same final state when none faults, and no
change of data when it faults. -/
def Obligations.BuildIsBaseSortCoall : Prop :=
  encode .build = 0x32000000 ∧
  ∀ s : State, s.fault = none → ∃ t u,
    exec .build s = .next t ∧ execAll [.base, .sort, .coall] s = .next u ∧
      (u.fault = none → t = { u with rsp := s.rsp ++ [⟨.ok, 0⟩] }) ∧
      (u.fault ≠ none → u.fault = some .weightOverflow ∧ t.fault = some .weightOverflow ∧
        SameData s t ∧ t.rsp = s.rsp ++ [⟨.fault .weightOverflow, encode .build⟩])

/-- R146, R147 (a), (c): when the counts sum to less than `2^32`, BUILD latches no tree if all counts
are zero, and otherwise a tree of the exact sum whose leaves are the counted symbols, each once; the
list holds that tree alone and its nodes are counted. -/
def Obligations.BuildTree : Prop :=
  ∀ s : State, s.fault = none → (allSymbols.map fun a => (readSym s.freq a).toNat).sum < 2 ^ 32 →
    ∃ (r : Option HuffTree) (n : BitVec 9),
      exec .build s = .next { s with
        pl := r.toList, tree := r, nnodes := n, rsp := s.rsp ++ [⟨.ok, 0⟩] } ∧
      (r = none ↔ ∀ a, readSym s.freq a = 0) ∧ n.toNat = (r.map HuffTree.size).getD 0 ∧
      ∀ t ∈ r, t.ok = true ∧
        t.weight.toNat = (allSymbols.map fun a => (readSym s.freq a).toNat).sum ∧
        t.symbols.Nodup ∧ ∀ a, a ∈ t.symbols ↔ readSym s.freq a ≠ 0

/-- R18: in every tree the block holds, the weight is the sum of the leaves' weights, `rep` is the
least symbol of the leaves, there are at most 256 leaves, and no leaf is deeper than 255. -/
def Obligations.TreeInvariants : Prop :=
  ∀ (s : State) (t : HuffTree), s.Inv → (t ∈ s.pl ∨ s.tree = some t) →
    t.weight.toNat = (t.leaves.map fun x => x.1.toNat).sum ∧ t.rep ∈ t.symbols ∧
      (∀ a ∈ t.symbols, t.rep.toNat ≤ a.toNat) ∧ t.leaves.length ≤ 256 ∧
      ∀ x ∈ t.leaves, x.2.2 ≤ 255

/-! ## Code table (44_codetable.md) -/

/-- R161: CTBLD rewrites all 256 entries and touches nothing else: with no tree every entry is empty;
with a tree the entry of a symbol is the path of the last of its leaves from the left, and empty for a
symbol without a leaf. -/
def Obligations.BuildCodeTable : Prop :=
  encode .ctbld = 0x40000000 ∧
  ∀ s : State, s.fault = none → ∃ c : CodeTable,
    exec .ctbld s = .next { s with ct := c, rsp := s.rsp ++ [⟨.ok, 0⟩] } ∧
    (s.tree = none → ∀ a, readSym c a = []) ∧
    ∀ t, s.tree = some t → ∀ a, readSym c a =
      (((t.pathsFrom []).filter fun x => x.1 == a).getLast?.map fun x => x.2).getD []

/-- R164 (c), R74: when no two leaves of the tree carry the same symbol, no codeword CTBLD makes is a
prefix of another. -/
def Obligations.PrefixFree : Prop :=
  ∀ (s t : State) (r : HuffTree), s.fault = none → s.tree = some r → r.symbols.Nodup →
    exec .ctbld s = .next t →
    ∀ a ∈ r.symbols, ∀ b ∈ r.symbols, a ≠ b → ¬ readSym t.ct a <+: readSym t.ct b

/-- R164 (a), (d): when no two leaves carry the same symbol, the length of a codeword is the depth of
its leaf, and the sum over the leaves of `2^(−length)` is 1. -/
def Obligations.KraftEquality : Prop :=
  ∀ (s t : State) (r : HuffTree), s.fault = none → s.tree = some r → r.symbols.Nodup →
    exec .ctbld s = .next t →
    (∀ x ∈ r.leaves, (readSym t.ct x.2.1).length = x.2.2) ∧
      (r.symbols.map fun a => ((1 : ℚ) / 2) ^ (readSym t.ct a).length).sum = 1

/-- R164 (b): after BUILD and CTBLD, of two or more counted symbols each has a codeword that is not
empty, and a symbol that was not counted has the empty one. -/
def Obligations.CountedSymbolsHaveCodes : Prop :=
  ∀ (s t : State) (a b : Symbol), s.fault = none → execAll [.build, .ctbld] s = .next t →
    t.fault = none → a ≠ b → readSym s.freq a ≠ 0 → readSym s.freq b ≠ 0 →
    ∀ x, readSym t.ct x ≠ [] ↔ readSym s.freq x ≠ 0

/-- R162, R163: CTLEN answers the length of a codeword; CTRD answers element `32c + k` at bit `31 − k`,
and 0 beyond the length; neither changes anything else. -/
def Obligations.ReadCodeword : Prop :=
  (∀ a c, (encode (.ctlen a)).toNat = 0x41000000 + a.toNat ∧
    (encode (.ctrd a c)).toNat = 0x42000000 + c.toNat * 2 ^ 8 + a.toNat) ∧
  ∀ (a : Symbol) (c : BitVec 3) (s : State), s.fault = none →
    (readSym s.ct a).length ≤ 255 → ∃ d e : Word,
    exec (.ctlen a) s = .next { s with rsp := s.rsp ++ [⟨.ok, d⟩] } ∧
    exec (.ctrd a c) s = .next { s with rsp := s.rsp ++ [⟨.ok, e⟩] } ∧
    d.toNat = (readSym s.ct a).length ∧
    ∀ k < 32, e.getLsbD (31 - k) = ((readSym s.ct a)[32 * c.toNat + k]? == some true)

/-- R77: the physical entry of a codeword of at most 255 bits holds its length and its elements, the
first at bit 254. -/
def Obligations.PhysicalEntry : Prop :=
  ∀ b : BitString, b.length ≤ 255 →
    (physLen b).toNat = b.length ∧
      (∀ k (h : k < b.length), (physCode b).getLsbD (254 - k) = b[k]) ∧
      ∀ k < 255, b.length ≤ k → (physCode b).getLsbD (254 - k) = false

/-! ## Bit packer (45_bitpack.md, 30_encoding.md R75) -/

/-- R176, R165, R175: ENC appends the codeword of an element that is at most 255, and nothing for any
other element; whole bytes leave, at most 32 of them, and nothing but ACC, NB, OUT and RSP changes. -/
def Obligations.EncodeElement : Prop :=
  (∀ v, (encode (.enc v)).toNat = 0x50000000 + v.toNat) ∧
  ∀ (v : InputElem) (s : State), s.fault = none → s.acc.toNat < 2 ^ s.nb.toNat →
    (∀ a, (readSym s.ct a).length ≤ 255) →
    ∃ t, exec (.enc v) s = .next { t with rsp := s.rsp ++ [⟨.ok, 0⟩] } ∧
      Appended s (if v.toNat ≤ 255 then readSym s.ct (v.extractLsb' 0 8) else []) t ∧
      t.out.length ≤ s.out.length + 32

/-- R177, R175: BITS appends `pat[n−1]` to `pat[0]` in that order and ignores the bits above; whole
bytes leave, at most two of them, and nothing but ACC, NB, OUT and RSP changes. -/
def Obligations.AppendRawBits : Prop :=
  (∀ n pat, (encode (.bits n pat)).toNat = 0x51000000 + n.toNat * 2 ^ 16 + pat.toNat) ∧
  ∀ (n : BitVec 5) (pat : BitVec 16) (b : BitString) (s : State), s.fault = none →
    s.acc.toNat < 2 ^ s.nb.toNat → n.toNat ≤ 16 → b.length = n.toNat →
    (∀ k (h : k < b.length), b[k] = pat.getLsbD (n.toNat - 1 - k)) →
    ∃ t, exec (.bits n pat) s = .next { t with rsp := s.rsp ++ [⟨.ok, 0⟩] } ∧ Appended s b t ∧
      t.out.length ≤ s.out.length + 2

/-- R178, R179: FLUSH emits the pending bits padded with zeros, as one byte if there are any, and
leaves none; BPCLR leaves none and emits nothing; neither touches anything else. -/
def Obligations.FlushAndDrop : Prop :=
  (encode .flush = 0x52000000 ∧ encode .bpclr = 0x53000000) ∧
  ∀ s : State, s.fault = none →
    exec .flush s = .next { s with
      acc := if s.nb = 0 then s.acc else 0, nb := 0, out := s.out ++ pack s.pending,
      rsp := s.rsp ++ [⟨.ok, 0⟩] } ∧
    (pack s.pending).length = (if s.nb = 0 then 0 else 1) ∧
    exec .bpclr s = .next { s with acc := 0, nb := 0, rsp := s.rsp ++ [⟨.ok, 0⟩] }

/-- R181 (a), (b): `pack` gives ceil(length / 8) bytes, and its bytes, most significant bit first, are
the bit-string followed by 0 to 7 zero bits. -/
def Obligations.PackIsLossless : Prop :=
  ∀ b : BitString, (pack b).length = (b.length + 7) / 8 ∧
    ∃ pad : Nat, pad ≤ 7 ∧
      (pack b).flatMap (fun y => (List.range 8).map fun m => y.getLsbD (7 - m)) =
        b ++ List.replicate pad false

/-- R180: from no pending bits, any mix of ENC, BITS and commands that touch neither ACC, NB nor CT,
ending with a FLUSH and with no fault, emits exactly `pack` of the bits appended. -/
def Obligations.PackerEmitsPack : Prop :=
  ∀ (is : List Instr) (s : State), s.nb = 0 → s.acc = 0 →
    (∀ i ∈ is, i ∉ ([.rst, .ctbld, .flush, .bpclr] : List Instr)) →
    FaultFree (is ++ [.flush]) s → ∃ t, execAll (is ++ [.flush]) s = .next t ∧
      t.out = s.out ++ pack (is.flatMap (appendedBits s.ct)) ∧ t.nb = 0 ∧ t.acc = 0

/-- R180, R79: the pseudo-instruction `PACK "bits"` emits exactly `pack(bits)`, for every bit-string
and from every state without a fault. -/
def Obligations.PackPseudo : Prop :=
  ∀ (b : BitString) (s : State), s.fault = none → ∃ t,
    execAll (expand (.pack b)) s = .next t ∧ t.out = s.out ++ pack b ∧ t.fault = none ∧ t.nb = 0

/-- R180, R228: the prescribed sequence `HUFF "text"` faults on no text shorter than `2^32`, and emits
exactly `pack` of the codewords of its elements under the tree of its own counts. -/
def Obligations.HuffPseudo : Prop :=
  ∀ (text : List InputElem) (s : State), s.fault = none → text.length < 2 ^ 32 →
    ∃ t, execAll (expand (.huff text)) s = .next t ∧ t.fault = none ∧ t.nb = 0 ∧
      (∀ a : Symbol, (readSym t.freq a).toNat = text.countP fun v => v.toNat == a.toNat) ∧
      t.tree = (coalesceAll (initialSort (baseList Config.hardware t.freq))).head? ∧
      t.ct = codeTableOf t.tree ∧ t.out = s.out ++ pack (text.flatMap (codeOf t.ct))

/-! ## The invariant -/

/-- The invariant holds at reset (R29, R18, R20, R21, R22). -/
def Obligations.InvAtReset : Prop := State.reset.Inv

/-- Every step keeps the invariant, from every state that has it: the list stays within 256 entries,
every tree keeps R18, every node is counted by NNODES, every codeword fits its entry, and the unused
bits of ACC stay zero. -/
def Obligations.StepKeepsInv : Prop := ∀ s t : State, s.Inv → step s = .next t → t.Inv

/-! ## Other configurations (00_scope.md R4) -/

/-- R4, R32: the host's machine is the machine of `Config.hardware` (DEDUCED, log entry 5); and for every
value of `Config`, also those `Config.valid` (U11) excludes (the model's choice, log entry 5), a command
raises exactly the faults of its row, at the limits the parameters set (IllegalCommand as in FaultCauses:
log entry 7). -/
def Obligations.ConfiguredMachine : Prop :=
  ((∀ w, decode w = decodeIn Config.hardware w) ∧ (∀ i s, exec i s = execIn Config.hardware i s) ∧
    ∀ s, step s = stepIn Config.hardware s) ∧
  ∀ (cfg : Config) (i : Instr) (s : State), s.fault = none →
    ∃ t, execIn cfg i s = .next t ∧ ∀ k, t.fault = some k ↔ FaultCauseIn cfg i s k

/-- From R114 and R146, for every value of `Config`, also those `Config.valid` (U11) excludes, where
weights held in 32 bits are the model's choice (DESIGN CHOICE, log entry 5): BASE makes, in ascending
symbol order, a leaf for each symbol that is counted, and with `ZERO_LEAVES` = 1 for each of the 256;
BUILD raises WeightOverflow when two or more of them reach `2^W`, and else latches the one tree that
sorting and coalescing make of them, none if there is no leaf. Neither changes anything else. -/
def Obligations.ConfiguredBaseAndBuild : Prop :=
  (encode .base = 0x21000000 ∧ encode .build = 0x32000000) ∧
  ∀ (cfg : Config) (s : State), s.fault = none → ∃ (l : List HuffTree) (n m : BitVec 9),
    (∀ t, t ∈ l ↔ ∃ a, t = .leaf (readSym s.freq a) a ∧
      (cfg.zeroLeaves = true ∨ readSym s.freq a ≠ 0)) ∧
    l.Pairwise (fun x y => x.rep.toNat < y.rep.toNat) ∧
    (cfg.zeroLeaves = true → ∀ a : Symbol, l[a.toNat]? = some (.leaf (readSym s.freq a) a)) ∧
    execIn cfg .base s =
      .next { s with pl := l, tree := none, nnodes := n, rsp := s.rsp ++ [⟨.ok, 0⟩] } ∧
    n.toNat = l.length ∧
    (2 ≤ l.length → 2 ^ cfg.w ≤ (l.map fun t => t.weight.toNat).sum →
      execIn cfg .build s = .next { s with
        fault := some .weightOverflow, rsp := s.rsp ++ [⟨.fault .weightOverflow, encode .build⟩] }) ∧
    (l.length < 2 ∨ (l.map fun t => t.weight.toNat).sum < 2 ^ cfg.w →
      ∃ r : Option HuffTree, coalesceAll (initialSort l) = r.toList ∧ (r = none ↔ l = []) ∧
        m.toNat = l.length + (l.length - 1) ∧
        execIn cfg .build s =
          .next { s with pl := r.toList, tree := r, nnodes := m, rsp := s.rsp ++ [⟨.ok, 0⟩] })
end

