-- ==== Sys2Proof/Laws/Tables.lean ====
section
/-! SUPPORT. The laws of the symbol-indexed tables FREQ and CT (20_memory.md R40, R41): a read after a
write, a cleared table, equality entry by entry; and of the list of all symbols. -/

namespace Sys2Proof.Machine

variable {α : Type}

@[simp] theorem readSym_writeSym_same (t : SymTable α) (s : Symbol) (a : α) :
    readSym (writeSym t s a) s = a := by
  simp [readSym, writeSym]

theorem readSym_writeSym_other (t : SymTable α) {s b : Symbol} (a : α) (h : b ≠ s) :
    readSym (writeSym t s a) b = readSym t b := by
  have h' : s.toNat ≠ b.toNat := fun e => h (BitVec.eq_of_toNat_eq e.symm)
  simp [readSym, writeSym, h']

theorem readSym_writeSym (t : SymTable α) (s b : Symbol) (a : α) :
    readSym (writeSym t s a) b = if b = s then a else readSym t b := by
  by_cases h : b = s
  · simp [h]
  · simp [h, readSym_writeSym_other]

@[simp] theorem readSym_clearedTable (a : α) (s : Symbol) : readSym (clearedTable a) s = a := by
  simp [readSym, clearedTable]

theorem symTable_ext {t u : SymTable α} (h : ∀ s, readSym t s = readSym u s) : t = u := by
  refine Vector.ext fun i hi => ?_
  have hi' : i % 256 = i := Nat.mod_eq_of_lt hi
  simpa [readSym, hi'] using h (BitVec.ofNat 8 i)

@[simp] theorem mem_allSymbols (s : Symbol) : s ∈ allSymbols := by
  refine List.mem_map.2 ⟨s.toNat, List.mem_range.2 s.isLt, ?_⟩
  simp

theorem allSymbols_map_toNat : allSymbols.map BitVec.toNat = List.range 256 := by
  have h : ∀ n ∈ List.range 256, (BitVec.ofNat 8 n).toNat = n := fun n hn => by
    have := List.mem_range.1 hn
    simp only [BitVec.toNat_ofNat]
    omega
  rw [allSymbols, List.map_map]
  exact (List.map_congr_left h).trans (List.map_id _)

theorem allSymbols_ascending : allSymbols.Pairwise fun a b => a.toNat < b.toNat := by
  rw [← List.pairwise_map (f := BitVec.toNat) (R := (· < ·)), allSymbols_map_toNat]
  exact List.pairwise_lt_range

theorem allSymbols_nodup : allSymbols.Nodup :=
  allSymbols_ascending.imp fun h e => by simp [e] at h

@[simp] theorem length_allSymbols : allSymbols.length = 256 := by
  simp [allSymbols]

end Sys2Proof.Machine
end

