-- ==== Sys2Proof/Laws/CodeTable.lean ====
section
/-! SUPPORT. The laws of finished trees and of the code table (44_codetable.md R160 to R164,
10_state.md R18): the paths of a tree, their lengths and the Kraft sum, the invariants of a good tree,
and what the walk leaves in every entry. -/

namespace Sys2Proof.Machine

/-! ## Paths and leaves of a tree -/

theorem pathsFrom_symbols (t : HuffTree) (p : BitString) :
    (t.pathsFrom p).map (fun x => x.1) = t.symbols := by
  induction t generalizing p with
  | leaf w s => rfl
  | node w t l r ihl ihr => simp [HuffTree.pathsFrom, HuffTree.symbols, ihl, ihr]

theorem leavesFrom_symbols (t : HuffTree) (d : Nat) :
    (t.leavesFrom d).map (fun x => x.2.1) = t.symbols := by
  induction t generalizing d with
  | leaf w s => rfl
  | node w t l r ihl ihr => simp [HuffTree.leavesFrom, HuffTree.symbols, ihl, ihr]

/-- The length of a path is the depth of its leaf (R73). -/
theorem pathsFrom_lengths (t : HuffTree) (p : BitString) :
    (t.pathsFrom p).map (fun x => (x.1, x.2.length)) =
      (t.leavesFrom p.length).map fun x => (x.2.1, x.2.2) := by
  induction t generalizing p with
  | leaf w s => rfl
  | node w t l r ihl ihr =>
    simpa [HuffTree.pathsFrom, HuffTree.leavesFrom] using
      congrArg₂ (· ++ ·) (ihl (p ++ [false])) (ihr (p ++ [true]))

/-- Every path below a node continues the path to it. -/
theorem pathsFrom_prefix {t : HuffTree} {p : BitString} {x : Symbol × BitString}
    (h : x ∈ t.pathsFrom p) : p <+: x.2 := by
  induction t generalizing p with
  | leaf w s =>
    obtain rfl := List.mem_singleton.1 h
    exact List.prefix_refl _
  | node w t l r ihl ihr =>
    rcases List.mem_append.1 h with h | h
    · exact (List.prefix_append p _).trans (ihl h)
    · exact (List.prefix_append p _).trans (ihr h)

/-- Two leaves' paths part at some node: neither continues the other (R74). -/
theorem pathsFrom_pairwise (t : HuffTree) (p : BitString) :
    (t.pathsFrom p).Pairwise fun x y => ¬ x.2 <+: y.2 ∧ ¬ y.2 <+: x.2 := by
  induction t generalizing p with
  | leaf w s => exact List.pairwise_singleton _ _
  | node w t l r ihl ihr =>
    refine List.pairwise_append.2 ⟨ihl _, ihr _, fun x hx y hy => ?_⟩
    obtain ⟨u, hu⟩ := pathsFrom_prefix hx
    obtain ⟨v, hv⟩ := pathsFrom_prefix hy
    rw [← hu, ← hv]
    simp [List.append_assoc, List.prefix_append_right_inj]

/-- Kraft equality below a node: its paths share out the weight of the path to it (R164 (d)). -/
theorem pathsFrom_kraft (t : HuffTree) (p : BitString) :
    ((t.pathsFrom p).map fun x => ((1 : ℚ) / 2) ^ x.2.length).sum = ((1 : ℚ) / 2) ^ p.length := by
  induction t generalizing p with
  | leaf w s => simp [HuffTree.pathsFrom]
  | node w t l r ihl ihr =>
    simp only [HuffTree.pathsFrom, List.map_append, List.sum_append, ihl, ihr, List.length_append,
      List.length_singleton, pow_succ]
    ring

theorem size_pos (t : HuffTree) : 0 < t.size := by
  cases t <;> simp [HuffTree.size]

/-- A tree with n leaves has n − 1 Nodes (R18 (c)). -/
theorem size_eq_leaves (t : HuffTree) (d : Nat) : t.size + 1 = 2 * (t.leavesFrom d).length := by
  induction t generalizing d with
  | leaf w s => rfl
  | node w t l r ihl ihr =>
    have h1 := ihl (d + 1)
    have h2 := ihr (d + 1)
    simp only [HuffTree.size, HuffTree.leavesFrom, List.length_append]
    omega

/-- A leaf of depth d has d Nodes above it, each with another child (R18 (c)). -/
theorem depth_le {t : HuffTree} {d : Nat} {x : Weight × Symbol × Nat} (h : x ∈ t.leavesFrom d) :
    2 * x.2.2 + 1 ≤ 2 * d + t.size := by
  induction t generalizing d with
  | leaf w s =>
    obtain rfl := List.mem_singleton.1 h
    simp [HuffTree.size]
  | node w t l r ihl ihr =>
    have hl := size_pos l
    have hr := size_pos r
    simp only [HuffTree.size]
    rcases List.mem_append.1 h with h | h
    · have := ihl h
      omega
    · have := ihr h
      omega

/-- The weight of a good tree is the sum of its leaves' weights (R18 (a), R147 (a)). -/
theorem ok_weight {t : HuffTree} (h : t.ok = true) (d : Nat) :
    t.weight.toNat = ((t.leavesFrom d).map fun x => x.1.toNat).sum := by
  induction t generalizing d with
  | leaf w s => simp [HuffTree.leavesFrom, HuffTree.weight]
  | node w t l r ihl ihr =>
    simp only [HuffTree.ok, Bool.and_eq_true, decide_eq_true_eq] at h
    obtain ⟨⟨⟨hw, -⟩, hl⟩, hr⟩ := h
    simp only [HuffTree.leavesFrom, List.map_append, List.sum_append, ← ihl hl, ← ihr hr,
      HuffTree.weight, hw]

/-- The representative symbol of a good tree is the least of its leaves' symbols (R18 (b)). -/
theorem ok_rep {t : HuffTree} (h : t.ok = true) :
    t.rep ∈ t.symbols ∧ ∀ a ∈ t.symbols, t.rep.toNat ≤ a.toNat := by
  induction t with
  | leaf w s => simp [HuffTree.symbols, HuffTree.rep]
  | node w t l r ihl ihr =>
    simp only [HuffTree.ok, Bool.and_eq_true, decide_eq_true_eq] at h
    obtain ⟨⟨⟨-, ht⟩, hl⟩, hr⟩ := h
    obtain ⟨hml, hll⟩ := ihl hl
    obtain ⟨hmr, hlr⟩ := ihr hr
    refine ⟨?_, fun a ha => ?_⟩
    · rcases Nat.le_total l.rep.toNat r.rep.toNat with hle | hle
      · have : t = l.rep := BitVec.eq_of_toNat_eq (by rw [ht, Nat.min_eq_left hle])
        exact List.mem_append_left _ (this ▸ hml)
      · have : t = r.rep := BitVec.eq_of_toNat_eq (by rw [ht, Nat.min_eq_right hle])
        exact List.mem_append_right _ (this ▸ hmr)
    · have hle : t.toNat ≤ l.rep.toNat ∧ t.toNat ≤ r.rep.toNat := by omega
      rcases List.mem_append.1 ha with ha | ha
      · exact Nat.le_trans hle.1 (hll a ha)
      · exact Nat.le_trans hle.2 (hlr a ha)

/-! ## The walk -/

/-- The whole effect of the walk on one entry (R160): the path of the last leaf of the symbol from the
left, or the entry as it was when the tree has no leaf of the symbol. -/
theorem readSym_walk (t : HuffTree) (p : BitString) (ct : CodeTable) (a : Symbol) :
    readSym (walk t p ct) a =
      (((t.pathsFrom p).filter fun x => x.1 == a).getLast?.map fun x => x.2).getD (readSym ct a) := by
  induction t generalizing p ct with
  | leaf w s =>
    by_cases h : a = s
    · simp [walk, HuffTree.pathsFrom, h]
    · have h' : ¬ s = a := fun e => h e.symm
      simp [walk, HuffTree.pathsFrom, h', readSym_writeSym_other _ _ h]
  | node w t l r ihl ihr =>
    simp only [walk, ihr, ihl, HuffTree.pathsFrom, List.filter_append, List.getLast?_append]
    cases ((r.pathsFrom (p ++ [true])).filter fun x => x.1 == a).getLast? <;> simp

/-- In a tree whose leaves carry different symbols, the entry of a leaf's symbol is its path. -/
theorem readSym_codeTable_of_path {t : HuffTree} (hnd : t.symbols.Nodup) {x : Symbol × BitString}
    (hx : x ∈ t.pathsFrom []) : readSym (codeTableOf (some t)) x.1 = x.2 := by
  have hf : (t.pathsFrom []).filter (fun y => y.1 == x.1) = [x] := by
    rw [← pathsFrom_symbols t []] at hnd
    generalize t.pathsFrom [] = l at hnd hx
    induction l with
    | nil => simp at hx
    | cons y ys ih =>
      rw [List.map_cons, List.nodup_cons] at hnd
      rcases List.mem_cons.1 hx with rfl | hx'
      · have : ys.filter (fun z => z.1 == x.1) = [] := by
          refine List.filter_eq_nil_iff.2 fun z hz hzx => hnd.1 ?_
          exact List.mem_map.2 ⟨z, hz, by simpa using hzx⟩
        simp [this]
      · have : ¬ y.1 = x.1 := fun e => hnd.1 (e ▸ List.mem_map_of_mem hx')
        simp [this, ih hnd.2 hx']
  rw [codeTableOf, readSym_walk, hf]
  rfl

/-- A symbol without a leaf has the empty entry (R161 (d)). -/
theorem readSym_codeTable_of_not_mem {t : HuffTree} {a : Symbol} (h : a ∉ t.symbols) :
    readSym (codeTableOf (some t)) a = [] := by
  have hf : (t.pathsFrom []).filter (fun y => y.1 == a) = [] := by
    refine List.filter_eq_nil_iff.2 fun y hy hya => h ?_
    rw [← pathsFrom_symbols t []]
    exact List.mem_map.2 ⟨y, hy, by simpa using hya⟩
  rw [codeTableOf, readSym_walk, hf]
  simp

/-- Every entry of the table is empty or the path of some leaf. -/
theorem readSym_codeTable_cases (t : HuffTree) (a : Symbol) :
    readSym (codeTableOf (some t)) a = [] ∨
      ∃ x ∈ t.pathsFrom [], x.1 = a ∧ readSym (codeTableOf (some t)) a = x.2 := by
  rw [codeTableOf, readSym_walk]
  cases h : ((t.pathsFrom []).filter fun x => x.1 == a).getLast? with
  | none => simp
  | some x =>
    right
    have := List.mem_filter.1 (List.mem_of_getLast? h)
    exact ⟨x, this.1, by simpa using this.2, rfl⟩

/-- Every codeword of a tree of at most 511 nodes fits an entry (R161, "Faults"). -/
theorem length_codeword_le {t : HuffTree} (h : t.size ≤ 511) (a : Symbol) :
    (readSym (codeTableOf (some t)) a).length ≤ 255 := by
  rcases readSym_codeTable_cases t a with h0 | ⟨x, hx, -, heq⟩
  · simp [h0]
  · have hmem := List.mem_map_of_mem (f := fun x : Symbol × BitString => (x.1, x.2.length)) hx
    rw [pathsFrom_lengths] at hmem
    obtain ⟨y, hy, hyx⟩ := List.mem_map.1 hmem
    have hlen : y.2.2 = x.2.length := congrArg Prod.snd hyx
    have hd := depth_le hy
    rw [heq, ← hlen]
    simp only [List.length_nil] at hd
    omega

end Sys2Proof.Machine
end

