-- ==== Sys2Proof/Laws/Encoding.lean ====
section
/-! SUPPORT. The laws of command words: fields and reserved bits as arithmetic on the word's number, and
the number of every encoded command (30_encoding.md R61, R66). -/

namespace Sys2Proof

theorem append_toNat {n m : Nat} (x : BitVec n) (y : BitVec m) :
    (x ++ y).toNat = x.toNat * 2 ^ m + y.toNat := by
  rw [BitVec.toNat_append, ← Nat.shiftLeft_add_eq_or_of_lt y.isLt, Nat.shiftLeft_eq]

/-- A field of a word is a quotient and a remainder of its number. -/
theorem field_toNat (w : Word) (lo len : Nat) :
    (w.extractLsb' lo len).toNat = w.toNat / 2 ^ lo % 2 ^ len := by
  simp [BitVec.extractLsb'_toNat, Nat.shiftRight_eq_div_pow]

/-- Masking with all bits from `k` up clears the bits below. -/
theorem and_highMask_toNat (w : Word) (k : Nat) :
    (w &&& BitVec.allOnes 32 <<< k).toNat = w.toNat / 2 ^ k * 2 ^ k := by
  refine Nat.eq_of_testBit_eq fun i => ?_
  rw [← Nat.shiftLeft_eq, ← Nat.shiftRight_eq_div_pow]
  simp only [BitVec.testBit_toNat, BitVec.getLsbD_and, BitVec.getLsbD_shiftLeft,
    BitVec.getLsbD_allOnes, Nat.testBit_shiftLeft, Nat.testBit_shiftRight]
  by_cases h : k ≤ i
  · have hik : k + (i - k) = i := by omega
    by_cases hi : i < 32
    · have : i - k < 32 := by omega
      simp [h, hi, hik, this]
    · simp [h, hi, hik, BitVec.getLsbD_of_ge w i (by omega)]
  · simp [h]

/-- How many low bits of the word a format leaves to its operand fields. -/
def Format.freeBits : Format → Nat
  | .z => 0
  | .v => 24
  | .s => 8
  | .l => 24
  | .i => 12
  | .j => 24
  | .c => 11
  | .b => 21

theorem Format.mask_eq (f : Format) : f.mask = BitVec.allOnes 32 <<< f.freeBits := by
  cases f <;> decide

/-- The reserved-field check of a row (R66 step 2): the bits above the operand fields are the opcode
byte followed by zeros. -/
theorem matches_iff (w : Word) (r : OpcodeRow) : w &&& r.format.mask = r.matchWord ↔
    w.toNat / 2 ^ r.format.freeBits = r.op.toNat * 2 ^ (24 - r.format.freeBits) := by
  rw [← BitVec.toNat_inj, Format.mask_eq, and_highMask_toNat, OpcodeRow.matchWord, append_toNat]
  have h24 : 2 ^ 24 = 2 ^ (24 - r.format.freeBits) * 2 ^ r.format.freeBits := by
    rw [← Nat.pow_add]
    congr 1
    cases r.format <;> rfl
  rw [h24, ← Nat.mul_assoc, BitVec.toNat_ofNat, Nat.zero_mod, Nat.add_zero]
  exact Nat.mul_left_inj (Nat.ne_of_gt (Nat.two_pow_pos _))

/-! ## The number of an encoded command, by format -/

section
variable (op s : BitVec 8) (v : InputElem) (w : BitVec 16) (i j : ListIndex) (c : BitVec 3)
  (n : BitVec 5) (pat : BitVec 16)

theorem formatV_toNat : (op ++ v : Word).toNat = op.toNat * 2 ^ 24 + v.toNat := append_toNat op v

theorem formatS_toNat : (op ++ 0#16 ++ s : Word).toNat = op.toNat * 2 ^ 24 + s.toNat := by
  rw [append_toNat, append_toNat]
  simp only [BitVec.toNat_ofNat]
  omega

theorem formatL_toNat :
    (op ++ s ++ w : Word).toNat = op.toNat * 2 ^ 24 + s.toNat * 2 ^ 16 + w.toNat := by
  rw [append_toNat, append_toNat]
  omega

theorem formatI_toNat : (op ++ 0#12 ++ i : Word).toNat = op.toNat * 2 ^ 24 + i.toNat := by
  rw [append_toNat, append_toNat]
  simp only [BitVec.toNat_ofNat]
  omega

theorem formatJ_toNat :
    (op ++ j ++ i : Word).toNat = op.toNat * 2 ^ 24 + j.toNat * 2 ^ 12 + i.toNat := by
  rw [append_toNat, append_toNat]
  omega

theorem formatC_toNat :
    (op ++ 0#13 ++ c ++ s : Word).toNat = op.toNat * 2 ^ 24 + c.toNat * 2 ^ 8 + s.toNat := by
  rw [append_toNat, append_toNat, append_toNat]
  simp only [BitVec.toNat_ofNat]
  omega

theorem formatB_toNat :
    (op ++ 0#3 ++ n ++ pat : Word).toNat = op.toNat * 2 ^ 24 + n.toNat * 2 ^ 16 + pat.toNat := by
  rw [append_toNat, append_toNat, append_toNat]
  simp only [BitVec.toNat_ofNat]
  omega

end

/-! ## The opcode map -/

/-- A row that an opcode byte finds is a row of the table with that byte (R63). -/
theorem opcodeRow_some {op : Byte} {r : OpcodeRow} (h : opcodeRow op = some r) :
    r ∈ opcodeTable ∧ r.op = op :=
  ⟨List.mem_of_find?_eq_some h, by simpa using List.find?_some h⟩

/-- The decoding procedure (R66): a word decodes to `i` exactly when its row is found, its reserved
fields are zero, its fields make `i`, and `i` is well formed. -/
theorem decode_eq_some_iff (w : Word) (i : Instr) : decode w = some i ↔
    ∃ r, opcodeRow (opField w) = some r ∧ w &&& r.format.mask = r.matchWord ∧ r.build w = i ∧
      i.wf = true := by
  unfold decode decodeIn decodeReason
  cases opcodeRow (opField w) with
  | none => simp
  | some r =>
    simp only [Option.some.injEq, exists_eq_left']
    by_cases hm : w &&& r.format.mask = r.matchWord
    · simp only [hm, ne_eq, not_true_eq_false, if_false, true_and]
      by_cases hw : (r.build w).wfIn Config.hardware = true
      · simp only [hw, if_true, Option.some.injEq]
        exact ⟨fun h => ⟨h, h ▸ hw⟩, fun h => h.1⟩
      · simp only [hw, Bool.false_eq_true, if_false, reduceCtorEq, false_iff]
        rintro ⟨rfl, hwf⟩
        exact hw hwf
    · simp [hm]

end Sys2Proof
end

