-- ==== Sys2Proof/Laws/State.lean ====
section
/-! SUPPORT. One lemma for each field of State after each update, each true by rfl, so that no proof
unfolds an update; and the fields after the shared operations that respond, fault and reset. -/

namespace Sys2Proof.Machine

variable (s : State)

/-! ### setFreq -/

@[simp] theorem State.setFreq_freq (f : FreqTable) : (s.setFreq f).freq = f := rfl
@[simp] theorem State.setFreq_pl (f : FreqTable) : (s.setFreq f).pl = s.pl := rfl
@[simp] theorem State.setFreq_tree (f : FreqTable) : (s.setFreq f).tree = s.tree := rfl
@[simp] theorem State.setFreq_nnodes (f : FreqTable) : (s.setFreq f).nnodes = s.nnodes := rfl
@[simp] theorem State.setFreq_ct (f : FreqTable) : (s.setFreq f).ct = s.ct := rfl
@[simp] theorem State.setFreq_acc (f : FreqTable) : (s.setFreq f).acc = s.acc := rfl
@[simp] theorem State.setFreq_nb (f : FreqTable) : (s.setFreq f).nb = s.nb := rfl
@[simp] theorem State.setFreq_fault (f : FreqTable) : (s.setFreq f).fault = s.fault := rfl
@[simp] theorem State.setFreq_out (f : FreqTable) : (s.setFreq f).out = s.out := rfl
@[simp] theorem State.setFreq_rsp (f : FreqTable) : (s.setFreq f).rsp = s.rsp := rfl
@[simp] theorem State.setFreq_input (f : FreqTable) : (s.setFreq f).input = s.input := rfl

/-! ### setPl -/

@[simp] theorem State.setPl_freq (l : List HuffTree) : (s.setPl l).freq = s.freq := rfl
@[simp] theorem State.setPl_pl (l : List HuffTree) : (s.setPl l).pl = l := rfl
@[simp] theorem State.setPl_tree (l : List HuffTree) : (s.setPl l).tree = s.tree := rfl
@[simp] theorem State.setPl_nnodes (l : List HuffTree) : (s.setPl l).nnodes = s.nnodes := rfl
@[simp] theorem State.setPl_ct (l : List HuffTree) : (s.setPl l).ct = s.ct := rfl
@[simp] theorem State.setPl_acc (l : List HuffTree) : (s.setPl l).acc = s.acc := rfl
@[simp] theorem State.setPl_nb (l : List HuffTree) : (s.setPl l).nb = s.nb := rfl
@[simp] theorem State.setPl_fault (l : List HuffTree) : (s.setPl l).fault = s.fault := rfl
@[simp] theorem State.setPl_out (l : List HuffTree) : (s.setPl l).out = s.out := rfl
@[simp] theorem State.setPl_rsp (l : List HuffTree) : (s.setPl l).rsp = s.rsp := rfl
@[simp] theorem State.setPl_input (l : List HuffTree) : (s.setPl l).input = s.input := rfl

/-! ### setTree -/

@[simp] theorem State.setTree_freq (t : Option HuffTree) : (s.setTree t).freq = s.freq := rfl
@[simp] theorem State.setTree_pl (t : Option HuffTree) : (s.setTree t).pl = s.pl := rfl
@[simp] theorem State.setTree_tree (t : Option HuffTree) : (s.setTree t).tree = t := rfl
@[simp] theorem State.setTree_nnodes (t : Option HuffTree) : (s.setTree t).nnodes = s.nnodes := rfl
@[simp] theorem State.setTree_ct (t : Option HuffTree) : (s.setTree t).ct = s.ct := rfl
@[simp] theorem State.setTree_acc (t : Option HuffTree) : (s.setTree t).acc = s.acc := rfl
@[simp] theorem State.setTree_nb (t : Option HuffTree) : (s.setTree t).nb = s.nb := rfl
@[simp] theorem State.setTree_fault (t : Option HuffTree) : (s.setTree t).fault = s.fault := rfl
@[simp] theorem State.setTree_out (t : Option HuffTree) : (s.setTree t).out = s.out := rfl
@[simp] theorem State.setTree_rsp (t : Option HuffTree) : (s.setTree t).rsp = s.rsp := rfl
@[simp] theorem State.setTree_input (t : Option HuffTree) : (s.setTree t).input = s.input := rfl

/-! ### setNNodes -/

@[simp] theorem State.setNNodes_freq (n : BitVec 9) : (s.setNNodes n).freq = s.freq := rfl
@[simp] theorem State.setNNodes_pl (n : BitVec 9) : (s.setNNodes n).pl = s.pl := rfl
@[simp] theorem State.setNNodes_tree (n : BitVec 9) : (s.setNNodes n).tree = s.tree := rfl
@[simp] theorem State.setNNodes_nnodes (n : BitVec 9) : (s.setNNodes n).nnodes = n := rfl
@[simp] theorem State.setNNodes_ct (n : BitVec 9) : (s.setNNodes n).ct = s.ct := rfl
@[simp] theorem State.setNNodes_acc (n : BitVec 9) : (s.setNNodes n).acc = s.acc := rfl
@[simp] theorem State.setNNodes_nb (n : BitVec 9) : (s.setNNodes n).nb = s.nb := rfl
@[simp] theorem State.setNNodes_fault (n : BitVec 9) : (s.setNNodes n).fault = s.fault := rfl
@[simp] theorem State.setNNodes_out (n : BitVec 9) : (s.setNNodes n).out = s.out := rfl
@[simp] theorem State.setNNodes_rsp (n : BitVec 9) : (s.setNNodes n).rsp = s.rsp := rfl
@[simp] theorem State.setNNodes_input (n : BitVec 9) : (s.setNNodes n).input = s.input := rfl

/-! ### setCt -/

@[simp] theorem State.setCt_freq (c : CodeTable) : (s.setCt c).freq = s.freq := rfl
@[simp] theorem State.setCt_pl (c : CodeTable) : (s.setCt c).pl = s.pl := rfl
@[simp] theorem State.setCt_tree (c : CodeTable) : (s.setCt c).tree = s.tree := rfl
@[simp] theorem State.setCt_nnodes (c : CodeTable) : (s.setCt c).nnodes = s.nnodes := rfl
@[simp] theorem State.setCt_ct (c : CodeTable) : (s.setCt c).ct = c := rfl
@[simp] theorem State.setCt_acc (c : CodeTable) : (s.setCt c).acc = s.acc := rfl
@[simp] theorem State.setCt_nb (c : CodeTable) : (s.setCt c).nb = s.nb := rfl
@[simp] theorem State.setCt_fault (c : CodeTable) : (s.setCt c).fault = s.fault := rfl
@[simp] theorem State.setCt_out (c : CodeTable) : (s.setCt c).out = s.out := rfl
@[simp] theorem State.setCt_rsp (c : CodeTable) : (s.setCt c).rsp = s.rsp := rfl
@[simp] theorem State.setCt_input (c : CodeTable) : (s.setCt c).input = s.input := rfl

/-! ### setPending -/

@[simp] theorem State.setPending_freq (a : BitVec 7) (n : BitVec 3) : (s.setPending a n).freq = s.freq := rfl
@[simp] theorem State.setPending_pl (a : BitVec 7) (n : BitVec 3) : (s.setPending a n).pl = s.pl := rfl
@[simp] theorem State.setPending_tree (a : BitVec 7) (n : BitVec 3) : (s.setPending a n).tree = s.tree := rfl
@[simp] theorem State.setPending_nnodes (a : BitVec 7) (n : BitVec 3) : (s.setPending a n).nnodes = s.nnodes := rfl
@[simp] theorem State.setPending_ct (a : BitVec 7) (n : BitVec 3) : (s.setPending a n).ct = s.ct := rfl
@[simp] theorem State.setPending_acc (a : BitVec 7) (n : BitVec 3) : (s.setPending a n).acc = a := rfl
@[simp] theorem State.setPending_nb (a : BitVec 7) (n : BitVec 3) : (s.setPending a n).nb = n := rfl
@[simp] theorem State.setPending_fault (a : BitVec 7) (n : BitVec 3) : (s.setPending a n).fault = s.fault := rfl
@[simp] theorem State.setPending_out (a : BitVec 7) (n : BitVec 3) : (s.setPending a n).out = s.out := rfl
@[simp] theorem State.setPending_rsp (a : BitVec 7) (n : BitVec 3) : (s.setPending a n).rsp = s.rsp := rfl
@[simp] theorem State.setPending_input (a : BitVec 7) (n : BitVec 3) : (s.setPending a n).input = s.input := rfl

/-! ### setFault -/

@[simp] theorem State.setFault_freq (f : Option FaultKind) : (s.setFault f).freq = s.freq := rfl
@[simp] theorem State.setFault_pl (f : Option FaultKind) : (s.setFault f).pl = s.pl := rfl
@[simp] theorem State.setFault_tree (f : Option FaultKind) : (s.setFault f).tree = s.tree := rfl
@[simp] theorem State.setFault_nnodes (f : Option FaultKind) : (s.setFault f).nnodes = s.nnodes := rfl
@[simp] theorem State.setFault_ct (f : Option FaultKind) : (s.setFault f).ct = s.ct := rfl
@[simp] theorem State.setFault_acc (f : Option FaultKind) : (s.setFault f).acc = s.acc := rfl
@[simp] theorem State.setFault_nb (f : Option FaultKind) : (s.setFault f).nb = s.nb := rfl
@[simp] theorem State.setFault_fault (f : Option FaultKind) : (s.setFault f).fault = f := rfl
@[simp] theorem State.setFault_out (f : Option FaultKind) : (s.setFault f).out = s.out := rfl
@[simp] theorem State.setFault_rsp (f : Option FaultKind) : (s.setFault f).rsp = s.rsp := rfl
@[simp] theorem State.setFault_input (f : Option FaultKind) : (s.setFault f).input = s.input := rfl

/-! ### emit -/

@[simp] theorem State.emit_freq (b : Byte) : (s.emit b).freq = s.freq := rfl
@[simp] theorem State.emit_pl (b : Byte) : (s.emit b).pl = s.pl := rfl
@[simp] theorem State.emit_tree (b : Byte) : (s.emit b).tree = s.tree := rfl
@[simp] theorem State.emit_nnodes (b : Byte) : (s.emit b).nnodes = s.nnodes := rfl
@[simp] theorem State.emit_ct (b : Byte) : (s.emit b).ct = s.ct := rfl
@[simp] theorem State.emit_acc (b : Byte) : (s.emit b).acc = s.acc := rfl
@[simp] theorem State.emit_nb (b : Byte) : (s.emit b).nb = s.nb := rfl
@[simp] theorem State.emit_fault (b : Byte) : (s.emit b).fault = s.fault := rfl
@[simp] theorem State.emit_out (b : Byte) : (s.emit b).out = s.out ++ [b] := rfl
@[simp] theorem State.emit_rsp (b : Byte) : (s.emit b).rsp = s.rsp := rfl
@[simp] theorem State.emit_input (b : Byte) : (s.emit b).input = s.input := rfl

/-! ### record -/

@[simp] theorem State.record_freq (r : Response) : (s.record r).freq = s.freq := rfl
@[simp] theorem State.record_pl (r : Response) : (s.record r).pl = s.pl := rfl
@[simp] theorem State.record_tree (r : Response) : (s.record r).tree = s.tree := rfl
@[simp] theorem State.record_nnodes (r : Response) : (s.record r).nnodes = s.nnodes := rfl
@[simp] theorem State.record_ct (r : Response) : (s.record r).ct = s.ct := rfl
@[simp] theorem State.record_acc (r : Response) : (s.record r).acc = s.acc := rfl
@[simp] theorem State.record_nb (r : Response) : (s.record r).nb = s.nb := rfl
@[simp] theorem State.record_fault (r : Response) : (s.record r).fault = s.fault := rfl
@[simp] theorem State.record_out (r : Response) : (s.record r).out = s.out := rfl
@[simp] theorem State.record_rsp (r : Response) : (s.record r).rsp = s.rsp ++ [r] := rfl
@[simp] theorem State.record_input (r : Response) : (s.record r).input = s.input := rfl

/-! ### setInput -/

@[simp] theorem State.setInput_freq (es : List HostEvent) : (s.setInput es).freq = s.freq := rfl
@[simp] theorem State.setInput_pl (es : List HostEvent) : (s.setInput es).pl = s.pl := rfl
@[simp] theorem State.setInput_tree (es : List HostEvent) : (s.setInput es).tree = s.tree := rfl
@[simp] theorem State.setInput_nnodes (es : List HostEvent) : (s.setInput es).nnodes = s.nnodes := rfl
@[simp] theorem State.setInput_ct (es : List HostEvent) : (s.setInput es).ct = s.ct := rfl
@[simp] theorem State.setInput_acc (es : List HostEvent) : (s.setInput es).acc = s.acc := rfl
@[simp] theorem State.setInput_nb (es : List HostEvent) : (s.setInput es).nb = s.nb := rfl
@[simp] theorem State.setInput_fault (es : List HostEvent) : (s.setInput es).fault = s.fault := rfl
@[simp] theorem State.setInput_out (es : List HostEvent) : (s.setInput es).out = s.out := rfl
@[simp] theorem State.setInput_rsp (es : List HostEvent) : (s.setInput es).rsp = s.rsp := rfl
@[simp] theorem State.setInput_input (es : List HostEvent) : (s.setInput es).input = es := rfl

/-! ### respond -/

@[simp] theorem respond_freq (d : Word) : (respond d s).freq = s.freq := rfl
@[simp] theorem respond_pl (d : Word) : (respond d s).pl = s.pl := rfl
@[simp] theorem respond_tree (d : Word) : (respond d s).tree = s.tree := rfl
@[simp] theorem respond_nnodes (d : Word) : (respond d s).nnodes = s.nnodes := rfl
@[simp] theorem respond_ct (d : Word) : (respond d s).ct = s.ct := rfl
@[simp] theorem respond_acc (d : Word) : (respond d s).acc = s.acc := rfl
@[simp] theorem respond_nb (d : Word) : (respond d s).nb = s.nb := rfl
@[simp] theorem respond_fault (d : Word) : (respond d s).fault = s.fault := rfl
@[simp] theorem respond_out (d : Word) : (respond d s).out = s.out := rfl
@[simp] theorem respond_rsp (d : Word) : (respond d s).rsp = s.rsp ++ [⟨.ok, d⟩] := rfl
@[simp] theorem respond_input (d : Word) : (respond d s).input = s.input := rfl

/-! ### refuseHalted -/

@[simp] theorem refuseHalted_freq (w : Word) : (refuseHalted w s).freq = s.freq := rfl
@[simp] theorem refuseHalted_pl (w : Word) : (refuseHalted w s).pl = s.pl := rfl
@[simp] theorem refuseHalted_tree (w : Word) : (refuseHalted w s).tree = s.tree := rfl
@[simp] theorem refuseHalted_nnodes (w : Word) : (refuseHalted w s).nnodes = s.nnodes := rfl
@[simp] theorem refuseHalted_ct (w : Word) : (refuseHalted w s).ct = s.ct := rfl
@[simp] theorem refuseHalted_acc (w : Word) : (refuseHalted w s).acc = s.acc := rfl
@[simp] theorem refuseHalted_nb (w : Word) : (refuseHalted w s).nb = s.nb := rfl
@[simp] theorem refuseHalted_fault (w : Word) : (refuseHalted w s).fault = s.fault := rfl
@[simp] theorem refuseHalted_out (w : Word) : (refuseHalted w s).out = s.out := rfl
@[simp] theorem refuseHalted_rsp (w : Word) : (refuseHalted w s).rsp = s.rsp ++ [⟨.halted, w⟩] := rfl
@[simp] theorem refuseHalted_input (w : Word) : (refuseHalted w s).input = s.input := rfl

/-! ### raise -/

@[simp] theorem raise_freq (k : FaultKind) (w : Word) : (raise k w s).freq = s.freq := rfl
@[simp] theorem raise_pl (k : FaultKind) (w : Word) : (raise k w s).pl = s.pl := rfl
@[simp] theorem raise_tree (k : FaultKind) (w : Word) : (raise k w s).tree = s.tree := rfl
@[simp] theorem raise_nnodes (k : FaultKind) (w : Word) : (raise k w s).nnodes = s.nnodes := rfl
@[simp] theorem raise_ct (k : FaultKind) (w : Word) : (raise k w s).ct = s.ct := rfl
@[simp] theorem raise_acc (k : FaultKind) (w : Word) : (raise k w s).acc = s.acc := rfl
@[simp] theorem raise_nb (k : FaultKind) (w : Word) : (raise k w s).nb = s.nb := rfl
@[simp] theorem raise_fault (k : FaultKind) (w : Word) : (raise k w s).fault = s.fault.or (some k) := rfl
@[simp] theorem raise_out (k : FaultKind) (w : Word) : (raise k w s).out = s.out := rfl
@[simp] theorem raise_rsp (k : FaultKind) (w : Word) : (raise k w s).rsp = s.rsp ++ [⟨.fault k, w⟩] := rfl
@[simp] theorem raise_input (k : FaultKind) (w : Word) : (raise k w s).input = s.input := rfl

/-! ### acknowledge -/

@[simp] theorem acknowledge_freq  : (acknowledge s).freq = s.freq := rfl
@[simp] theorem acknowledge_pl  : (acknowledge s).pl = s.pl := rfl
@[simp] theorem acknowledge_tree  : (acknowledge s).tree = s.tree := rfl
@[simp] theorem acknowledge_nnodes  : (acknowledge s).nnodes = s.nnodes := rfl
@[simp] theorem acknowledge_ct  : (acknowledge s).ct = s.ct := rfl
@[simp] theorem acknowledge_acc  : (acknowledge s).acc = s.acc := rfl
@[simp] theorem acknowledge_nb  : (acknowledge s).nb = s.nb := rfl
@[simp] theorem acknowledge_fault  : (acknowledge s).fault = none := rfl
@[simp] theorem acknowledge_out  : (acknowledge s).out = s.out := rfl
@[simp] theorem acknowledge_rsp  : (acknowledge s).rsp = s.rsp := rfl
@[simp] theorem acknowledge_input  : (acknowledge s).input = s.input := rfl

/-! ### resetState -/

@[simp] theorem resetState_freq  : (resetState s).freq = clearedTable 0 := rfl
@[simp] theorem resetState_pl  : (resetState s).pl = [] := rfl
@[simp] theorem resetState_tree  : (resetState s).tree = none := rfl
@[simp] theorem resetState_nnodes  : (resetState s).nnodes = 0 := rfl
@[simp] theorem resetState_ct  : (resetState s).ct = clearedTable [] := rfl
@[simp] theorem resetState_acc  : (resetState s).acc = 0 := rfl
@[simp] theorem resetState_nb  : (resetState s).nb = 0 := rfl
@[simp] theorem resetState_fault  : (resetState s).fault = none := rfl
@[simp] theorem resetState_out  : (resetState s).out = s.out := rfl
@[simp] theorem resetState_rsp  : (resetState s).rsp = s.rsp := rfl
@[simp] theorem resetState_input  : (resetState s).input = s.input := rfl

end Sys2Proof.Machine
end

