-- ==== Sys2Proof/Laws/Packer.lean ====
section
/-! SUPPORT. The laws of the bit packer (45_bitpack.md R175 to R178, 30_encoding.md R75): what `pack`
does to groups of eight bits, what `append_bits` and FLUSH do to the pending bits and to OUT. -/

namespace Sys2Proof.Machine


/-! ## `pack` -/

/-- The eight bits of a packed byte, most significant first (R44, R75). -/
theorem packByte_bit (b : BitString) (k m : Nat) (hm : m < 8) :
    (packByte b k).getLsbD (7 - m) = b.getD (8 * k + m) false := by
  have key : ∀ (x0 x1 x2 x3 x4 x5 x6 x7 : Bool) (j : Fin 8),
      (BitVec.ofNat 8 (x0.toNat * 128 + (x1.toNat * 64 + (x2.toNat * 32 + (x3.toNat * 16 +
        (x4.toNat * 8 + (x5.toNat * 4 + (x6.toNat * 2 + x7.toNat)))))))).getLsbD (7 - j.val) =
      [x0, x1, x2, x3, x4, x5, x6, x7].getD j.val false := by
    decide +kernel
  have hb : packByte b k = BitVec.ofNat 8 ((b.getD (8 * k) false).toNat * 128 +
      ((b.getD (8 * k + 1) false).toNat * 64 + ((b.getD (8 * k + 2) false).toNat * 32 +
      ((b.getD (8 * k + 3) false).toNat * 16 + ((b.getD (8 * k + 4) false).toNat * 8 +
      ((b.getD (8 * k + 5) false).toNat * 4 + ((b.getD (8 * k + 6) false).toNat * 2 +
      (b.getD (8 * k + 7) false).toNat))))))) := by
    simp [packByte, packBit, List.range_succ_eq_map]
  rw [hb, key _ _ _ _ _ _ _ _ ⟨m, hm⟩]
  interval_cases m <;> rfl

/-- A byte is the packed byte of a bit-string when its bits are. -/
theorem eq_packByte {y : Byte} {b : BitString} {k : Nat}
    (h : ∀ m < 8, y.getLsbD (7 - m) = b.getD (8 * k + m) false) : y = packByte b k := by
  refine BitVec.eq_of_getLsbD_eq fun j hj => ?_
  have := h (7 - j) (by omega)
  rw [← packByte_bit b k (7 - j) (by omega)] at this
  rwa [show 7 - (7 - j) = j by omega] at this

@[simp] theorem length_pack (b : BitString) : (pack b).length = (b.length + 7) / 8 := by
  simp [pack]

@[simp] theorem pack_nil : pack [] = [] := rfl

/-- A whole group of eight leaves as one byte, and the rest packs as before (R75). -/
theorem pack_append_eight (c b : BitString) (hc : c.length = 8) :
    pack (c ++ b) = packByte c 0 :: pack b := by
  have hlen : ((c ++ b).length + 7) / 8 = (b.length + 7) / 8 + 1 := by
    rw [List.length_append]
    omega
  rw [pack, hlen, List.range_succ_eq_map, List.map_cons, List.map_map]
  congr 1
  · refine eq_packByte fun m hm => ?_
    rw [packByte_bit _ _ _ hm, List.getD_append _ _ _ _ (by omega)]
  · refine List.map_congr_left fun k _ => ?_
    refine eq_packByte fun m hm => ?_
    rw [Function.comp, packByte_bit _ _ _ hm, List.getD_append_right _ _ _ _ (by omega)]
    congr 1
    omega

/-- One group of less than eight bits packs to one byte, padded with zeros (R75). -/
theorem pack_short (b : BitString) (h0 : b ≠ []) (h : b.length < 8) : pack b = [packByte b 0] := by
  have : 0 < b.length := List.length_pos_iff.2 h0
  rw [pack, show (b.length + 7) / 8 = 1 by omega]
  rfl

/-- Packing cuts at any multiple of eight bits. -/
theorem pack_append (c b : BitString) (hc : 8 ∣ c.length) : pack (c ++ b) = pack c ++ pack b := by
  obtain ⟨n, hn⟩ := hc
  induction n generalizing c with
  | zero => simp [List.length_eq_zero_iff.1 hn]
  | succ n ih =>
    have h8 : (c.take 8).length = 8 := by rw [List.length_take]; omega
    have hd : (c.drop 8).length = 8 * n := by rw [List.length_drop]; omega
    conv_lhs => rw [← List.take_append_drop 8 c, List.append_assoc, pack_append_eight _ _ h8,
      ih _ hd]
    conv_rhs => rw [← List.take_append_drop 8 c, pack_append_eight _ _ h8]
    rfl

/-! ## The pending bits -/

@[simp] theorem length_pending (s : State) : s.pending.length = s.nb.toNat := by
  simp [State.pending]

theorem pending_getD (s : State) (m : Nat) (hm : m < s.nb.toNat) :
    s.pending.getD m false = s.acc.getLsbD (s.nb.toNat - 1 - m) := by
  simp [State.pending, List.getD_eq_getElem?_getD, hm]

theorem nb_toNat_lt (s : State) : s.nb.toNat < 8 := s.nb.isLt

theorem pending_of_nb_eq_zero {s : State} (h : s.nb = 0) : s.pending = [] := by
  simp [State.pending, h]

/-- What one turn of the loop does: the bit joins the pending bits, and the eighth sends them out as
a byte (R175). -/
theorem appendBit_cases (s : State) (b : Bool) :
    (s.nb.toNat = 7 ∧ appendBit s b = (s.setPending 0 0).emit (packByte (s.pending ++ [b]) 0)) ∨
    (s.nb.toNat < 7 ∧ (appendBit s b).pending = s.pending ++ [b] ∧
      appendBit s b = s.setPending ((s.acc.concat b).setWidth 7) (s.nb + 1) ∧
      (appendBit s b).nb.toNat = s.nb.toNat + 1 ∧
      (s.acc.toNat < 2 ^ s.nb.toNat →
        (appendBit s b).acc.toNat < 2 ^ (appendBit s b).nb.toNat)) := by
  by_cases h : s.nb = 7
  · left
    have hn : s.nb.toNat = 7 := by rw [h]; rfl
    refine ⟨hn, ?_⟩
    have hb : s.acc.concat b = packByte (s.pending ++ [b]) 0 := by
      refine eq_packByte fun m hm => ?_
      by_cases hm7 : m < 7
      · rw [List.getD_append _ _ _ _ (by simp; omega), pending_getD _ _ (by omega), hn]
        rw [show 7 - m = (7 - 1 - m) + 1 by omega, BitVec.getLsbD_concat]
        simp
      · have : m = 7 := by omega
        subst this
        rw [List.getD_append_right _ _ _ _ (by simp; omega)]
        simp [hn]
    unfold appendBit
    rw [if_pos h, hb]
  · right
    have hlt := nb_toNat_lt s
    have hn : s.nb.toNat < 7 := by
      have : s.nb.toNat ≠ 7 := fun e => h (BitVec.eq_of_toNat_eq e)
      omega
    have heq : appendBit s b = s.setPending ((s.acc.concat b).setWidth 7) (s.nb + 1) := by
      unfold appendBit
      rw [if_neg h]
    have hnb : (s.nb + 1).toNat = s.nb.toNat + 1 := by
      rw [BitVec.toNat_add]
      change (s.nb.toNat + 1) % 8 = _
      omega
    refine ⟨hn, ?_, heq, by rw [heq]; exact hnb, fun hacc => ?_⟩
    · rw [heq, State.pending, State.setPending_acc, State.setPending_nb, hnb, List.range_succ,
        List.map_append, State.pending]
      congr 1
      · refine List.map_congr_left fun k hk => ?_
        have hk' := List.mem_range.1 hk
        rw [BitVec.getLsbD_setWidth, show s.nb.toNat + 1 - 1 - k = (s.nb.toNat - 1 - k) + 1 by omega,
          BitVec.getLsbD_concat]
        simp
        omega
      · simp [BitVec.getLsbD_concat]
    · rw [heq, State.setPending_acc, State.setPending_nb, hnb, BitVec.toNat_setWidth,
        BitVec.toNat_concat, Nat.pow_succ]
      have : b.toNat < 2 := Bool.toNat_lt b
      exact Nat.lt_of_le_of_lt (Nat.mod_le _ _) (by omega)

/-- `append_bits` writes nothing but ACC, NB and OUT (R176, "State written"). -/
theorem appendBits_frame (b : BitString) (s : State) : appendBits s b =
    { s with acc := (appendBits s b).acc, nb := (appendBits s b).nb, out := (appendBits s b).out } := by
  induction b generalizing s with
  | nil => rfl
  | cons x xs ih =>
    obtain ⟨a, n, o, h⟩ : ∃ a n o, appendBit s x = { s with acc := a, nb := n, out := o } := by
      unfold appendBit
      split
      · exact ⟨_, _, _, rfl⟩
      · exact ⟨_, _, _, rfl⟩
    have := ih (appendBit s x)
    rw [h] at this
    rw [show appendBits s (x :: xs) = appendBits (appendBit s x) xs from rfl, h]
    exact this

theorem appendBits_cons (s : State) (x : Bool) (xs : BitString) :
    appendBits s (x :: xs) = appendBits (appendBit s x) xs := rfl

/-- The whole effect of `append_bits` (R175): of the pending bits followed by the new ones, the whole
groups of eight leave as bytes and the rest is pending; the unused bits of ACC stay zero. -/
theorem appendBits_spec (b : BitString) (s : State) :
    (appendBits s b).out =
      s.out ++ pack ((s.pending ++ b).take (8 * ((s.pending ++ b).length / 8))) ∧
    (appendBits s b).pending = (s.pending ++ b).drop (8 * ((s.pending ++ b).length / 8)) ∧
    (s.acc.toNat < 2 ^ s.nb.toNat → (appendBits s b).acc.toNat < 2 ^ (appendBits s b).nb.toNat) := by
  induction b generalizing s with
  | nil =>
    have h : 8 * (s.pending.length / 8) = 0 := by
      rw [length_pending, Nat.div_eq_of_lt (nb_toNat_lt s)]
    rw [List.append_nil, h]
    simp [appendBits]
  | cons x xs ih =>
    rw [appendBits_cons]
    rcases appendBit_cases s x with ⟨hnb, heq⟩ | ⟨hnb, hpend, heq, -, hacc⟩
    · obtain ⟨ho, hp, ha⟩ := ih (appendBit s x)
      have hpend : (appendBit s x).pending = [] := pending_of_nb_eq_zero (by rw [heq]; rfl)
      have hout : (appendBit s x).out = s.out ++ [packByte (s.pending ++ [x]) 0] := by
        rw [heq]
        rfl
      have hc : (s.pending ++ [x]).length = 8 := by simp [hnb]
      have hall : s.pending ++ x :: xs = (s.pending ++ [x]) ++ xs := by simp
      have hq : 8 * (((s.pending ++ [x]) ++ xs).length / 8) =
          (s.pending ++ [x]).length + 8 * (xs.length / 8) := by
        rw [List.length_append, hc]
        omega
      rw [hpend, hout] at ho
      rw [hpend] at hp
      simp only [List.nil_append] at ho hp
      refine ⟨?_, ?_, fun _ => ha ?_⟩
      · rw [ho, hall, hq, List.take_length_add_append, pack_append_eight _ _ hc]
        simp
      · rw [hp, hall, hq, List.drop_length_add_append]
      · rw [heq]
        simp
    · obtain ⟨ho, hp, ha⟩ := ih (appendBit s x)
      have hout : (appendBit s x).out = s.out := by rw [heq]; rfl
      have hall : s.pending ++ x :: xs = (s.pending ++ [x]) ++ xs := by simp
      rw [hpend, hout] at ho
      rw [hpend] at hp
      rw [hall]
      exact ⟨ho, hp, fun h => ha (hacc h)⟩

/-- How many bits are pending and how many bytes have left (R175, last sentence). -/
theorem appendBits_counts (b : BitString) (s : State) :
    (appendBits s b).nb.toNat = (s.nb.toNat + b.length) % 8 ∧
      (appendBits s b).out.length = s.out.length + (s.nb.toNat + b.length) / 8 := by
  obtain ⟨ho, hp, -⟩ := appendBits_spec b s
  have hlen : (s.pending ++ b).length = s.nb.toNat + b.length := by simp
  constructor
  · rw [← length_pending, hp, List.length_drop, hlen]
    omega
  · rw [ho, List.length_append, length_pack, List.length_take, hlen]
    omega

/-- The byte FLUSH emits packs the pending bits (R178, R75). -/
theorem paddedByte_eq (s : State) : paddedByte s.acc s.nb = packByte s.pending 0 := by
  refine eq_packByte fun m hm => ?_
  have hnb := nb_toNat_lt s
  rw [Nat.mul_zero, Nat.zero_add, paddedByte, BitVec.getLsbD_shiftLeft, BitVec.getLsbD_setWidth]
  by_cases h : m < s.nb.toNat
  · rw [pending_getD _ _ h, show 7 - m - (8 - s.nb.toNat) = s.nb.toNat - 1 - m by omega]
    have h1 : 7 - m < 8 := by omega
    have h2 : ¬ 7 - m < 8 - s.nb.toNat := by omega
    have h3 : s.nb.toNat - 1 - m < 8 := by omega
    simp [h1, h2, h3]
  · have h2 : 7 - m < 8 - s.nb.toNat := by omega
    rw [List.getD_eq_default _ _ (by simp; omega)]
    simp [h2]

/-- FLUSH emits exactly the packed pending bits and leaves none (R178). -/
theorem flushPending_eq (s : State) : flushPending s =
    { s with acc := if s.nb = 0 then s.acc else 0, nb := 0, out := s.out ++ pack s.pending } := by
  by_cases h : s.nb = 0
  · rw [flushPending, if_pos h, if_pos h, pending_of_nb_eq_zero h, pack_nil, List.append_nil]
    rw [← h]
  · have hpos : s.nb.toNat ≠ 0 := fun e => h (BitVec.eq_of_toNat_eq e)
    have hlt := nb_toNat_lt s
    have hne : s.pending ≠ [] := by
      rw [ne_eq, ← List.length_eq_zero_iff, length_pending]
      exact hpos
    rw [flushPending, if_neg h, if_neg h, pack_short _ hne (by simp; omega), paddedByte_eq]
    rfl

end Sys2Proof.Machine
end

