-- ==== Sys2Proof/Laws/Trees.lean ====
section
/-! SUPPORT. The laws of the priority-list functions and of the trees: `tree_lt` as an order on keys,
what `insert`, `initial_sort`, `coalesce_once` and `coalesce_all` do to a list, and what they keep
(42_plist.md R110 to R113, 43_tree.md R140 to R147). -/

namespace Sys2Proof.Machine

/-! ## The order -/

theorem treeLt_iff (x y : HuffTree) : treeLt x y = true ↔ x.weight.toNat < y.weight.toNat ∨
    (x.weight.toNat = y.weight.toNat ∧ x.rep.toNat < y.rep.toNat) := by
  simp [treeLt, BitVec.ult, ← BitVec.toNat_inj]

theorem treeLt_false_iff (x y : HuffTree) : treeLt x y = false ↔ y.weight.toNat < x.weight.toNat ∨
    (y.weight.toNat = x.weight.toNat ∧ y.rep.toNat ≤ x.rep.toNat) := by
  rw [← Bool.not_eq_true, treeLt_iff]
  omega

theorem key_eq_iff (x y : HuffTree) :
    x.key = y.key ↔ x.weight.toNat = y.weight.toNat ∧ x.rep.toNat = y.rep.toNat := by
  simp [HuffTree.key, Prod.ext_iff, BitVec.toNat_inj]

/-- "Does not precede" is transitive: the order of keys is total. -/
theorem treeLt_false_trans {x y z : HuffTree} (h1 : treeLt y x = false) (h2 : treeLt z y = false) :
    treeLt z x = false := by
  rw [treeLt_false_iff] at *
  omega

/-- An ascending list is ascending between any two positions. -/
theorem ascending_iff_pairwise (l : List HuffTree) :
    Ascending l ↔ l.Pairwise fun x y => treeLt y x = false := by
  have htrans : IsTrans HuffTree fun x y => treeLt y x = false :=
    ⟨fun _ _ _ h1 h2 => treeLt_false_trans h1 h2⟩
  rw [← List.isChain_iff_pairwise, List.isChain_iff_getElem]
  exact ⟨fun h k hk => h k hk, fun h k hk => h k hk⟩

/-! ## Insertion -/

@[simp] theorem insertTree_nil (n : HuffTree) : insertTree [] n = [n] := rfl

theorem insertTree_cons (x : HuffTree) (xs : List HuffTree) (n : HuffTree) :
    insertTree (x :: xs) n = if treeLt n x then n :: x :: xs else x :: insertTree xs n := by
  by_cases h : treeLt n x <;> simp [insertTree, List.findIdx_cons, h]

theorem insertTree_perm (l : List HuffTree) (n : HuffTree) : (insertTree l n).Perm (n :: l) := by
  simp only [insertTree, List.append_assoc, List.singleton_append]
  refine List.perm_middle.trans ?_
  rw [List.take_append_drop]

@[simp] theorem length_insertTree (l : List HuffTree) (n : HuffTree) :
    (insertTree l n).length = l.length + 1 :=
  (insertTree_perm l n).length_eq

/-- The new entry stands before the first entry it precedes (R111). -/
theorem insertTree_position (l : List HuffTree) (n : HuffTree) :
    ∃ p, insertTree l n = l.take p ++ [n] ++ l.drop p ∧ p ≤ l.length ∧
      (∀ k (h : k < l.length), k < p → treeLt n l[k] = false) ∧
      ∀ h : p < l.length, treeLt n l[p] = true :=
  ⟨l.findIdx (treeLt n), rfl, List.findIdx_le_length,
    fun _ _ hk => by simpa using List.not_of_lt_findIdx hk,
    fun h => List.findIdx_getElem (w := h)⟩

theorem insertTree_ascending {l : List HuffTree} (n : HuffTree) (h : Ascending l) :
    Ascending (insertTree l n) := by
  rw [ascending_iff_pairwise] at *
  induction l with
  | nil => simp
  | cons x xs ih =>
    obtain ⟨hx, hxs⟩ := List.pairwise_cons.1 h
    rw [insertTree_cons]
    by_cases hlt : treeLt n x = true
    · have hnx : treeLt x n = false := by rw [treeLt_false_iff]; rw [treeLt_iff] at hlt; omega
      rw [if_pos hlt]
      refine List.pairwise_cons.2 ⟨fun y hy => ?_, h⟩
      rcases List.mem_cons.1 hy with rfl | hy
      · exact hnx
      · exact treeLt_false_trans hnx (hx y hy)
    · rw [if_neg hlt]
      refine List.pairwise_cons.2 ⟨fun y hy => ?_, ih hxs⟩
      rcases List.mem_cons.1 ((insertTree_perm xs n).mem_iff.1 hy) with rfl | hy
      · simpa using hlt
      · exact hx y hy

/-- In an ascending list the new entry goes after every entry of equal key (R113 (e)). -/
theorem insertTree_filter_key {l : List HuffTree} (n : HuffTree) (key : Weight × Symbol)
    (h : Ascending l) : (insertTree l n).filter (fun x => x.key == key) =
      l.filter (fun x => x.key == key) ++ if n.key = key then [n] else [] := by
  rw [ascending_iff_pairwise] at h
  induction l with
  | nil => by_cases hk : n.key = key <;> simp [hk]
  | cons x xs ih =>
    obtain ⟨hx, hxs⟩ := List.pairwise_cons.1 h
    rw [insertTree_cons]
    by_cases hlt : treeLt n x = true
    · rw [if_pos hlt]
      by_cases hk : n.key = key
      · have hnone : (x :: xs).filter (fun y => y.key == key) = [] := by
          refine List.filter_eq_nil_iff.2 fun y hy hyk => ?_
          have hyn : n.key = y.key := hk.trans (beq_iff_eq.1 hyk).symm
          rw [key_eq_iff] at hyn
          rw [treeLt_iff] at hlt
          rcases List.mem_cons.1 hy with rfl | hy
          · omega
          · have := hx y hy
            rw [treeLt_false_iff] at this
            omega
        rw [List.filter_cons, hnone]
        simp [hk]
      · rw [List.filter_cons]
        simp [hk]
    · rw [if_neg hlt, List.filter_cons, List.filter_cons, ih hxs]
      split <;> simp

/-! ## Sorting -/

theorem initialSort_eq_foldr (l : List HuffTree) :
    initialSort l = l.foldr (fun x sorted => insertTree sorted x) [] := by
  induction l with
  | nil => rfl
  | cons x xs ih => simp [initialSort, ih]

theorem initialSort_ascending (l : List HuffTree) : Ascending (initialSort l) := by
  induction l with
  | nil => intro k h; simp [initialSort] at h
  | cons x xs ih => exact insertTree_ascending x ih

theorem initialSort_perm (l : List HuffTree) : (initialSort l).Perm l := by
  induction l with
  | nil => exact List.Perm.refl _
  | cons x xs ih => exact (insertTree_perm _ _).trans (ih.cons x)

@[simp] theorem length_initialSort (l : List HuffTree) : (initialSort l).length = l.length :=
  (initialSort_perm l).length_eq

/-! ## Coalescing -/

@[simp] theorem coalesceOnce_cons (a b : HuffTree) (rest : List HuffTree) :
    coalesceOnce (a :: b :: rest) = insertTree rest (mergeTrees a b) := rfl

theorem length_coalesceOnce (l : List HuffTree) : (coalesceOnce l).length = max (l.length - 1) (min l.length 1) := by
  rcases l with _ | ⟨a, _ | ⟨b, rest⟩⟩ <;> simp [coalesceOnce]

theorem coalesceOnce_of_length_le {l : List HuffTree} (h : l.length ≤ 1) : coalesceOnce l = l := by
  rcases l with _ | ⟨a, _ | ⟨b, rest⟩⟩
  · rfl
  · rfl
  · simp at h

theorem coalesceOnce_ascending {l : List HuffTree} (h : Ascending l) : Ascending (coalesceOnce l) := by
  rcases l with _ | ⟨a, _ | ⟨b, rest⟩⟩
  · exact h
  · exact h
  · rw [ascending_iff_pairwise] at h
    exact insertTree_ascending _ ((ascending_iff_pairwise rest).2
      (List.pairwise_cons.1 (List.pairwise_cons.1 h).2).2)

theorem coalesceFuel_eq_iterate (fuel : Nat) (l : List HuffTree) :
    coalesceFuel fuel l = coalesceOnce^[fuel] l := by
  induction fuel generalizing l with
  | zero => rfl
  | succ k ih =>
    rw [coalesceFuel, Function.iterate_succ_apply]
    by_cases h : l.length ≤ 1
    · rw [if_pos h, coalesceOnce_of_length_le h]
      clear ih
      induction k with
      | zero => rfl
      | succ k ih => rw [Function.iterate_succ_apply, coalesceOnce_of_length_le h, ← ih]
    · rw [if_neg h, ih]

theorem length_iterate_coalesceOnce (k : Nat) (l : List HuffTree) (h : k < l.length) :
    (coalesceOnce^[k] l).length = l.length - k := by
  induction k generalizing l with
  | zero => rfl
  | succ k ih =>
    have hl := length_coalesceOnce l
    rw [Function.iterate_succ_apply, ih _ (by omega)]
    omega

/-- A list of n entries takes exactly n − 1 merges (R144). -/
theorem coalesceAll_eq_iterate (l : List HuffTree) :
    coalesceAll l = coalesceOnce^[l.length - 1] l := by
  rw [coalesceAll, coalesceFuel_eq_iterate]
  rcases l with _ | ⟨a, t⟩
  · rfl
  · have h1 := length_iterate_coalesceOnce t.length (a :: t) (by simp)
    rw [List.length_cons, Function.iterate_succ_apply', Nat.add_sub_cancel,
      coalesceOnce_of_length_le (by simp at h1; omega)]

/-- The defining equations of `coalesce_all` (R144). -/
theorem coalesceAll_of_length_le {l : List HuffTree} (h : l.length ≤ 1) : coalesceAll l = l := by
  rw [coalesceAll_eq_iterate, Nat.sub_eq_zero_of_le h]
  rfl

theorem coalesceAll_of_two_le {l : List HuffTree} (h : 2 ≤ l.length) :
    coalesceAll l = coalesceAll (coalesceOnce l) := by
  have hl := length_coalesceOnce l
  rw [coalesceAll_eq_iterate, coalesceAll_eq_iterate (coalesceOnce l),
    ← Function.iterate_succ_apply]
  congr 2
  omega

theorem length_coalesceAll (l : List HuffTree) : (coalesceAll l).length = min l.length 1 := by
  rw [coalesceAll_eq_iterate]
  rcases l with _ | ⟨a, t⟩
  · rfl
  · rw [length_iterate_coalesceOnce _ _ (by simp)]
    simp

/-- Coalescing of a list, as induction on merges: what holds of the list and is kept by a merge of the
two front entries holds of the result. -/
theorem coalesceAll_induction {P : List HuffTree → Prop} {l : List HuffTree} (h : P l)
    (hstep : ∀ a b rest, P (a :: b :: rest) → P (insertTree rest (mergeTrees a b))) :
    P (coalesceAll l) := by
  rw [coalesceAll_eq_iterate]
  generalize l.length - 1 = k
  induction k generalizing l with
  | zero => exact h
  | succ k ih =>
    rw [Function.iterate_succ_apply]
    refine ih ?_
    rcases l with _ | ⟨a, _ | ⟨b, rest⟩⟩
    · exact h
    · exact h
    · exact hstep a b rest h

/-! ## Merging -/

@[simp] theorem mergeTrees_weight_toNat {a b : HuffTree}
    (h : a.weight.toNat + b.weight.toNat < 2 ^ 32) :
    (mergeTrees a b).weight.toNat = a.weight.toNat + b.weight.toNat := by
  change (a.weight + b.weight).toNat = _
  rw [BitVec.toNat_add]
  omega

theorem minSymbol_toNat (a b : Symbol) : (minSymbol a b).toNat = min a.toNat b.toNat := by
  simp only [minSymbol, BitVec.ult, decide_eq_true_eq]
  split <;> omega

@[simp] theorem mergeTrees_size (a b : HuffTree) : (mergeTrees a b).size = a.size + b.size + 1 := rfl

@[simp] theorem mergeTrees_symbols (a b : HuffTree) :
    (mergeTrees a b).symbols = a.symbols ++ b.symbols := rfl

theorem mergeTrees_ok {a b : HuffTree} (ha : a.ok = true) (hb : b.ok = true)
    (h : a.weight.toNat + b.weight.toNat < 2 ^ 32) : (mergeTrees a b).ok = true := by
  have hw : (a.weight + b.weight).toNat = _ := mergeTrees_weight_toNat h
  simp only [mergeTrees, HuffTree.ok, ha, hb, minSymbol_toNat, hw, decide_true, Bool.and_self]

/-! ## Sums over a list of trees -/

theorem totalWeight_perm {l l' : List HuffTree} (h : l.Perm l') : totalWeight l = totalWeight l' :=
  (h.map _).sum_eq

@[simp] theorem totalWeight_cons (a : HuffTree) (l : List HuffTree) :
    totalWeight (a :: l) = a.weight.toNat + totalWeight l := by
  simp [totalWeight]

theorem totalWeight_insertTree (l : List HuffTree) (n : HuffTree) :
    totalWeight (insertTree l n) = n.weight.toNat + totalWeight l := by
  rw [totalWeight_perm (insertTree_perm l n), totalWeight_cons]

/-- The nodes of all the trees of a list. -/
def totalSize (l : List HuffTree) : Nat := (l.map HuffTree.size).sum

theorem totalSize_perm {l l' : List HuffTree} (h : l.Perm l') : totalSize l = totalSize l' :=
  (h.map _).sum_eq

@[simp] theorem totalSize_cons (a : HuffTree) (l : List HuffTree) :
    totalSize (a :: l) = a.size + totalSize l := by
  simp [totalSize]

theorem totalSize_insertTree (l : List HuffTree) (n : HuffTree) :
    totalSize (insertTree l n) = n.size + totalSize l := by
  rw [totalSize_perm (insertTree_perm l n), totalSize_cons]

/-- Coalescing below the weight bound keeps the total weight and the leaves, whatever the trees are
(R147 (a), (c)). -/
theorem coalesceAll_totals {l : List HuffTree} (hw : totalWeight l < 2 ^ 32) :
    totalWeight (coalesceAll l) = totalWeight l ∧
      ((coalesceAll l).flatMap HuffTree.symbols).Perm (l.flatMap HuffTree.symbols) := by
  refine coalesceAll_induction (P := fun m => totalWeight m = totalWeight l ∧
    (m.flatMap HuffTree.symbols).Perm (l.flatMap HuffTree.symbols)) ⟨rfl, List.Perm.refl _⟩ ?_
  rintro a b rest ⟨htot, hperm⟩
  have hsum : a.weight.toNat + b.weight.toNat < 2 ^ 32 := by
    simp only [totalWeight_cons] at htot
    omega
  constructor
  · rw [totalWeight_insertTree, mergeTrees_weight_toNat hsum, ← htot]
    simp only [totalWeight_cons]
    omega
  · refine (List.Perm.flatMap_right _ (insertTree_perm rest _)).trans (List.Perm.trans ?_ hperm)
    simp

/-- The leaves of a tree without their depths do not depend on the depth counted from. -/
theorem leavesFrom_weightSymbol (t : HuffTree) (d : Nat) :
    (t.leavesFrom d).map (fun x => (x.1, x.2.1)) = t.leaves.map fun x => (x.1, x.2.1) := by
  have key : ∀ d e : Nat, (t.leavesFrom d).map (fun x => (x.1, x.2.1)) =
      (t.leavesFrom e).map fun x => (x.1, x.2.1) := by
    induction t with
    | leaf w s => exact fun _ _ => rfl
    | node w s l r ihl ihr =>
      intro d e
      simp only [HuffTree.leavesFrom, List.map_append]
      rw [ihl (d + 1) (e + 1), ihr (d + 1) (e + 1)]
  exact key d 0

@[simp] theorem mergeTrees_leaves (a b : HuffTree) :
    (mergeTrees a b).leaves.map (fun x => (x.1, x.2.1)) =
      (a.leaves.map fun x => (x.1, x.2.1)) ++ b.leaves.map fun x => (x.1, x.2.1) := by
  rw [← leavesFrom_weightSymbol a 1, ← leavesFrom_weightSymbol b 1]
  exact List.map_append

/-- Coalescing keeps the leaves, each with its weight and symbol (R147 (c)). -/
theorem coalesceAll_leaves (l : List HuffTree) :
    ((coalesceAll l).flatMap fun t => t.leaves.map fun x => (x.1, x.2.1)).Perm
      (l.flatMap fun t => t.leaves.map fun x => (x.1, x.2.1)) := by
  refine coalesceAll_induction (P := fun m => (m.flatMap fun t => t.leaves.map
    fun x => (x.1, x.2.1)).Perm (l.flatMap fun t => t.leaves.map fun x => (x.1, x.2.1)))
    (List.Perm.refl _) ?_
  intro a b rest hperm
  refine (List.Perm.flatMap_right _ (insertTree_perm rest _)).trans (List.Perm.trans ?_ hperm)
  simp only [List.flatMap_cons, mergeTrees_leaves, List.append_assoc]
  exact List.Perm.refl _

/-- Coalescing a list of good trees below the weight bound gives good trees (R18 (a), (b)). -/
theorem coalesceAll_ok {l : List HuffTree} (hok : ∀ t ∈ l, t.ok = true)
    (hw : totalWeight l < 2 ^ 32) : ∀ t ∈ coalesceAll l, t.ok = true := by
  refine (coalesceAll_induction (P := fun m => (∀ t ∈ m, t.ok = true) ∧
    totalWeight m = totalWeight l) ⟨hok, rfl⟩ ?_).1
  rintro a b rest ⟨hm, htot⟩
  have hsum : a.weight.toNat + b.weight.toNat < 2 ^ 32 := by
    simp only [totalWeight_cons] at htot
    omega
  constructor
  · intro t ht
    rcases List.mem_cons.1 ((insertTree_perm rest _).mem_iff.1 ht) with rfl | ht
    · exact mergeTrees_ok (hm a (by simp)) (hm b (by simp)) hsum
    · exact hm t (by simp [ht])
  · rw [totalWeight_insertTree, mergeTrees_weight_toNat hsum, ← htot]
    simp only [totalWeight_cons]
    omega

/-- The nodes of the trees after coalescing: one more for each merge (R145). -/
theorem totalSize_coalesceAll (l : List HuffTree) :
    totalSize (coalesceAll l) = totalSize l + (l.length - 1) := by
  have key : totalSize (coalesceAll l) + (coalesceAll l).length = totalSize l + l.length := by
    refine coalesceAll_induction (P := fun m => totalSize m + m.length = totalSize l + l.length)
      rfl ?_
    intro a b rest h
    rw [totalSize_insertTree, mergeTrees_size, length_insertTree, ← h]
    simp only [totalSize_cons, List.length_cons]
    omega
  have hlen := length_coalesceAll l
  omega

theorem coalesceAll_ascending {l : List HuffTree} (h : Ascending l) : Ascending (coalesceAll l) :=
  coalesceAll_induction (P := Ascending) h fun a b rest hab =>
    coalesceOnce_ascending (l := a :: b :: rest) hab

end Sys2Proof.Machine
end

