-- ==== Sys2Proof/Laws/Exec.lean ====
section
/-! SUPPORT. What executing a command can do: refused while halted, else the effect of its own rule;
and one lemma for the effect of each shared operation that can fault, with all its cases
(60_exceptions.md R195 to R207). -/

namespace Sys2Proof.Machine

/-! ## Dispatch: halted, or the effect of the command's rule -/

/-- While FAULT is not 0 every command but the four control commands is refused (R199). -/
theorem exec_halted {i : Instr} {s : State} (h : s.fault ≠ none) (hi : i.isControl = false) :
    exec i s = .next (refuseHalted (encode i) s) := by
  have h' : s.fault.isSome = true := Option.isSome_iff_ne_none.2 h
  cases i <;> first
    | (cases hi; done)
    | simp only [exec, execFclr, execCnt, execCntIn, execFrd, execPlclr, execBase, execBaseIn, execPlapp,
        execPlappIn, execPlins, execPlinsIn, execSort, execPllen, execPlrdw, execPlrdk, execPllt, execCo1,
        execCo1In, execCoall, execCoallIn, execBuild, execBuildIn, execCtbld, execCtlen, execCtrd, execEnc,
        execBits, execBitsIn, execFlush, execBpclr, unlessHalted, h', if_true]

@[simp] theorem exec_nop (s : State) : exec .nop s = .next (respond 0 s) := rfl
@[simp] theorem exec_rst (s : State) : exec .rst s = .next (respond 0 (resetState s)) := rfl
@[simp] theorem exec_stat (s : State) : exec .stat s = .next (respond s.status s) := rfl
@[simp] theorem exec_errack (s : State) : exec .errack s = .next (respond 0 (acknowledge s)) := rfl

theorem unlessHalted_running {i : Instr} {s : State} {body : State → State} (h : s.fault = none) :
    unlessHalted i s body = .next (body s) := by
  rw [unlessHalted, h]
  rfl

section Running
variable {s : State} (h : s.fault = none)
include h

theorem exec_fclr : exec .fclr s = .next (respond 0 (s.setFreq (clearedTable 0))) := by
  simp only [exec, execFclr, unlessHalted_running h]

theorem exec_cnt (v : InputElem) :
    exec (.cnt v) s = .next (countElement Config.hardware v s) := by
  simp only [exec, execCnt, execCntIn, unlessHalted_running h]

theorem exec_frd (a : Symbol) : exec (.frd a) s = .next (respond (readSym s.freq a) s) := by
  simp only [exec, execFrd, unlessHalted_running h]

theorem exec_plclr :
    exec .plclr s = .next (respond 0 (((s.setPl []).setTree none).setNNodes 0)) := by
  simp only [exec, execPlclr, unlessHalted_running h]

theorem exec_base : exec .base s = .next (loadBaseList Config.hardware s) := by
  simp only [exec, execBase, execBaseIn, unlessHalted_running h]

theorem exec_plapp (a : Symbol) (w : BitVec 16) : exec (.plapp a w) s =
    .next (addLeaf Config.hardware (.plapp a w) (s.pl ++ [.leaf (leafWeight Config.hardware w) a]) s) := by
  simp only [exec, execPlapp, execPlappIn, unlessHalted_running h]

theorem exec_plins (a : Symbol) (w : BitVec 16) : exec (.plins a w) s =
    .next (addLeaf Config.hardware (.plins a w) (insertTree s.pl (.leaf (leafWeight Config.hardware w) a)) s) := by
  simp only [exec, execPlins, execPlinsIn, unlessHalted_running h]

theorem exec_sort : exec .sort s = .next (respond 0 (s.setPl (initialSort s.pl))) := by
  simp only [exec, execSort, unlessHalted_running h]

theorem exec_pllen : exec .pllen s = .next (respond s.listInfo s) := by
  simp only [exec, execPllen, unlessHalted_running h]

theorem exec_plrdw (k : ListIndex) :
    exec (.plrdw k) s = .next (readEntry (.plrdw k) k (fun t => t.weight) s) := by
  simp only [exec, execPlrdw, unlessHalted_running h]

theorem exec_plrdk (k : ListIndex) :
    exec (.plrdk k) s = .next (readEntry (.plrdk k) k kindAndRep s) := by
  simp only [exec, execPlrdk, unlessHalted_running h]

theorem exec_pllt (k j : ListIndex) : exec (.pllt k j) s = .next (compareEntries k j s) := by
  simp only [exec, execPllt, unlessHalted_running h]

theorem exec_co1 : exec .co1 s = .next (coalesceStep Config.hardware s) := by
  simp only [exec, execCo1, execCo1In, unlessHalted_running h]

theorem exec_coall : exec .coall s = .next (coalesceList Config.hardware s) := by
  simp only [exec, execCoall, execCoallIn, unlessHalted_running h]

theorem exec_build : exec .build s = .next (buildTree Config.hardware s) := by
  simp only [exec, execBuild, execBuildIn, unlessHalted_running h]

theorem exec_ctbld : exec .ctbld s = .next (respond 0 (s.setCt (codeTableOf s.tree))) := by
  simp only [exec, execCtbld, unlessHalted_running h]

theorem exec_ctlen (a : Symbol) :
    exec (.ctlen a) s = .next (respond (lengthWord (readSym s.ct a)) s) := by
  simp only [exec, execCtlen, unlessHalted_running h]

theorem exec_ctrd (a : Symbol) (c : BitVec 3) :
    exec (.ctrd a c) s = .next (respond (chunkOf (readSym s.ct a) c) s) := by
  simp only [exec, execCtrd, unlessHalted_running h]

theorem exec_enc (v : InputElem) :
    exec (.enc v) s = .next (respond 0 (appendBits s (codeOf s.ct v))) := by
  simp only [exec, execEnc, unlessHalted_running h]

theorem exec_bits (n : BitVec 5) (pat : BitVec 16) :
    exec (.bits n pat) s = .next (appendRaw Config.hardware n pat s) := by
  simp only [exec, execBits, execBitsIn, unlessHalted_running h]

theorem exec_flush : exec .flush s = .next (respond 0 (flushPending s)) := by
  simp only [exec, execFlush, unlessHalted_running h]

theorem exec_bpclr : exec .bpclr s = .next (respond 0 (s.setPending 0 0)) := by
  simp only [exec, execBpclr, unlessHalted_running h]

/-! The commands that read a parameter, in any configuration. -/

section
variable (cfg : Config)

theorem execIn_cnt (v : InputElem) : execIn cfg (.cnt v) s = .next (countElement cfg v s) :=
  unlessHalted_running h

theorem execIn_base : execIn cfg .base s = .next (loadBaseList cfg s) := unlessHalted_running h

theorem execIn_plapp (a : Symbol) (w : BitVec 16) : execIn cfg (.plapp a w) s =
    .next (addLeaf cfg (.plapp a w) (s.pl ++ [.leaf (leafWeight cfg w) a]) s) :=
  unlessHalted_running h

theorem execIn_plins (a : Symbol) (w : BitVec 16) : execIn cfg (.plins a w) s =
    .next (addLeaf cfg (.plins a w) (insertTree s.pl (.leaf (leafWeight cfg w) a)) s) :=
  unlessHalted_running h

theorem execIn_co1 : execIn cfg .co1 s = .next (coalesceStep cfg s) := unlessHalted_running h

theorem execIn_coall : execIn cfg .coall s = .next (coalesceList cfg s) := unlessHalted_running h

theorem execIn_build : execIn cfg .build s = .next (buildTree cfg s) := unlessHalted_running h

theorem execIn_bits (n : BitVec 5) (pat : BitVec 16) :
    execIn cfg (.bits n pat) s = .next (appendRaw cfg n pat s) := unlessHalted_running h

end

end Running

/-- On this hardware's parameters a configured command is the command. -/
theorem execIn_hardware (i : Instr) (s : State) : execIn Config.hardware i s = exec i s := by
  cases i <;> rfl

/-- Every command ends in a next state: the step of the spec is total (R32, R240). -/
theorem exec_total (i : Instr) (s : State) : ∃ t, exec i s = .next t := by
  cases i <;> exact ⟨_, rfl⟩

/-- What a control command leaves, for use in a case split over all commands. -/
theorem exec_running_or_halted (i : Instr) (s : State) :
    s.fault = none ∨ i.isControl = true ∨
      (s.fault ≠ none ∧ exec i s = .next (refuseHalted (encode i) s)) := by
  by_cases h : s.fault = none
  · exact .inl h
  · cases hi : i.isControl with
    | true => exact .inr (.inl rfl)
    | false => exact .inr (.inr ⟨h, exec_halted h hi⟩)

/-! ## Taking a fault -/

/-- Taking a fault when none is latched, as one record (R198). -/
theorem raise_eq {s : State} (h : s.fault = none) (k : FaultKind) (w : Word) :
    raise k w s = { s with fault := some k, rsp := s.rsp ++ [⟨.fault k, w⟩] } := by
  simp [raise, h, State.setFault, State.record]

theorem respond_eq (d : Word) (s : State) :
    respond d s = { s with rsp := s.rsp ++ [⟨.ok, d⟩] } := rfl

/-! ## Operands -/

theorem symbolOf_eq_some {v : InputElem} {a : Symbol} :
    symbolOf v = some a ↔ v.toNat = a.toNat := by
  have ha := a.isLt
  unfold symbolOf
  split
  · rename_i h
    rw [Option.some.injEq, ← BitVec.toNat_inj, BitVec.toNat_setWidth, Nat.mod_eq_of_lt (by omega)]
  · simp
    omega

theorem symbolOf_eq_none {v : InputElem} : symbolOf v = none ↔ 255 < v.toNat := by
  unfold symbolOf
  split <;> simp <;> omega

/-- On this hardware every 16-bit operand fits a weight (R62). -/
theorem leafWeight_hardware (w : BitVec 16) : leafWeight Config.hardware w = w.setWidth 32 := by
  have hw := w.isLt
  exact if_pos (Nat.lt_trans hw (by decide))

/-- A new leaf's weight has `W` bits in every configuration (R13, R62). -/
theorem leafWeight_lt (cfg : Config) (w : BitVec 16) (h : cfg.w ≤ 32) :
    (leafWeight cfg w).toNat < 2 ^ cfg.w := by
  have hp : 2 ^ cfg.w ≤ 2 ^ 32 := Nat.pow_le_pow_right (by decide) h
  unfold leafWeight
  split
  · rw [BitVec.toNat_setWidth]
    exact Nat.lt_of_le_of_lt (Nat.mod_le _ _) ‹_›
  · rw [BitVec.toNat_ofNat]
    exact Nat.lt_of_le_of_lt (Nat.mod_le _ _) (Nat.mod_lt _ (Nat.two_pow_pos _))

/-- An element with more than `V_IN` bits denotes no symbol, as any element above 255 (R14). -/
theorem symbolOf_of_not_fits {cfg : Config} {v : InputElem} (hc : cfg.valid = true)
    (h : elementFits cfg v = false) : symbolOf v = none := by
  have hv : 8 < cfg.vIn := by
    simp only [Config.valid, decide_eq_true_eq] at hc
    exact hc.2.2.1
  have hp : 2 ^ 8 < 2 ^ cfg.vIn := Nat.pow_lt_pow_right (by decide) hv
  simp only [elementFits, decide_eq_false_iff_not] at h
  exact symbolOf_eq_none.2 (by omega)

theorem entryAt_eq_none {s : State} {k : ListIndex} : entryAt s k = none ↔ s.pl.length ≤ k.toNat := by
  simp [entryAt]

/-! ## The effects that can fault, case by case, in any configuration -/

@[simp] theorem hardware_w : Config.hardware.w = 32 := rfl
@[simp] theorem hardware_vIn : Config.hardware.vIn = 24 := rfl
@[simp] theorem hardware_zeroLeaves : Config.hardware.zeroLeaves = false := rfl
@[simp] theorem hardware_listCap : Config.hardware.listCap = 256 := rfl
@[simp] theorem hardware_nodeCap : Config.hardware.nodeCap = 511 := rfl
@[simp] theorem hardware_bitsMax : Config.hardware.bitsMax = 16 := rfl

/-- CNT (R101). -/
theorem countElement_cases (cfg : Config) (v : InputElem) (s : State) :
    (255 < v.toNat ∧ countElement cfg v s = respond 0 s) ∨
    ∃ a : Symbol, v.toNat = a.toNat ∧
      (((readSym s.freq a).toNat = 2 ^ cfg.w - 1 ∧
          countElement cfg v s = raise .countOverflow (encode (.cnt v)) s) ∨
        ((readSym s.freq a).toNat ≠ 2 ^ cfg.w - 1 ∧ countElement cfg v s =
          respond 0 (s.setFreq (writeSym s.freq a (readSym s.freq a + 1))))) := by
  cases h : symbolOf v with
  | none =>
    left
    exact ⟨symbolOf_eq_none.1 h, by simp only [countElement, h]⟩
  | some a =>
    right
    refine ⟨a, symbolOf_eq_some.1 h, ?_⟩
    by_cases hm : (readSym s.freq a).toNat = 2 ^ cfg.w - 1
    · left
      refine ⟨hm, ?_⟩
      simp only [countElement, h]
      exact if_pos hm
    · right
      refine ⟨hm, ?_⟩
      simp only [countElement, h]
      exact if_neg hm

/-- PLAPP and PLINS (R116, R117). -/
theorem addLeaf_cases (cfg : Config) (i : Instr) (l : List HuffTree) (s : State) :
    (s.pl.length = cfg.listCap ∧ addLeaf cfg i l s = raise .listFull (encode i) s) ∨
    (s.pl.length ≠ cfg.listCap ∧ s.nnodes.toNat = cfg.nodeCap ∧
      addLeaf cfg i l s = raise .arenaFull (encode i) s) ∨
    (s.pl.length ≠ cfg.listCap ∧ s.nnodes.toNat ≠ cfg.nodeCap ∧
      addLeaf cfg i l s = respond 0 ((s.setPl l).setNNodes (s.nnodes + 1))) := by
  by_cases h1 : s.pl.length = cfg.listCap
  · exact .inl ⟨h1, if_pos h1⟩
  · by_cases h2 : s.nnodes.toNat = cfg.nodeCap
    · exact .inr (.inl ⟨h1, h2, (if_neg h1).trans (if_pos h2)⟩)
    · exact .inr (.inr ⟨h1, h2, (if_neg h1).trans (if_neg h2)⟩)

/-- PLRDW and PLRDK (R120, R121). -/
theorem readEntry_cases (i : Instr) (k : ListIndex) (d : HuffTree → Word) (s : State) :
    (s.pl.length ≤ k.toNat ∧ readEntry i k d s = raise .index (encode i) s) ∨
    ∃ h : k.toNat < s.pl.length, readEntry i k d s = respond (d s.pl[k.toNat]) s := by
  by_cases h : k.toNat < s.pl.length
  · exact .inr ⟨h, by simp [readEntry, entryAt, h]⟩
  · exact .inl ⟨by omega, by simp [readEntry, entryAt, h]⟩

/-- PLLT (R122). -/
theorem compareEntries_cases (i j : ListIndex) (s : State) :
    ((s.pl.length ≤ i.toNat ∨ s.pl.length ≤ j.toNat) ∧
      compareEntries i j s = raise .index (encode (.pllt i j)) s) ∨
    ∃ (hi : i.toNat < s.pl.length) (hj : j.toNat < s.pl.length),
      compareEntries i j s = respond (boolWord (treeLt s.pl[i.toNat] s.pl[j.toNat])) s := by
  by_cases hi : i.toNat < s.pl.length
  · by_cases hj : j.toNat < s.pl.length
    · exact .inr ⟨hi, hj, by simp [compareEntries, entryAt, hi, hj]⟩
    · exact .inl ⟨by omega, by simp [compareEntries, entryAt, hi, hj]⟩
  · exact .inl ⟨by omega, by simp [compareEntries, entryAt, hi]⟩

/-- CO1 (R143). -/
theorem coalesceStep_cases (cfg : Config) (s : State) :
    (s.pl.length < 2 ∧ coalesceStep cfg s = raise .underflow (encode .co1) s) ∨
    ∃ a b rest, s.pl = a :: b :: rest ∧
      ((s.nnodes.toNat = cfg.nodeCap ∧
          coalesceStep cfg s = raise .arenaFull (encode .co1) s) ∨
        (s.nnodes.toNat ≠ cfg.nodeCap ∧ 2 ^ cfg.w ≤ a.weight.toNat + b.weight.toNat ∧
          coalesceStep cfg s = raise .weightOverflow (encode .co1) s) ∨
        (s.nnodes.toNat ≠ cfg.nodeCap ∧ a.weight.toNat + b.weight.toNat < 2 ^ cfg.w ∧
          coalesceStep cfg s = respond 0
            ((s.setPl (insertTree rest (mergeTrees a b))).setNNodes (s.nnodes + 1)))) := by
  rcases h : s.pl with _ | ⟨a, _ | ⟨b, rest⟩⟩
  · exact .inl ⟨by simp, by simp [coalesceStep, h]⟩
  · exact .inl ⟨by simp, by simp [coalesceStep, h]⟩
  · refine .inr ⟨a, b, rest, rfl, ?_⟩
    simp only [coalesceStep, h]
    by_cases h1 : s.nnodes.toNat = cfg.nodeCap
    · exact .inl ⟨h1, if_pos h1⟩
    · by_cases h2 : a.weight.toNat + b.weight.toNat ≥ 2 ^ cfg.w
      · exact .inr (.inl ⟨h1, h2, (if_neg h1).trans (if_pos h2)⟩)
      · exact .inr (.inr ⟨h1, by omega, (if_neg h1).trans (if_neg h2)⟩)

/-- COALL (R145). -/
theorem coalesceList_cases (cfg : Config) (s : State) :
    (cfg.nodeCap < s.nnodes.toNat + (s.pl.length - 1) ∧
      coalesceList cfg s = raise .arenaFull (encode .coall) s) ∨
    (s.nnodes.toNat + (s.pl.length - 1) ≤ cfg.nodeCap ∧ 2 ≤ s.pl.length ∧ 2 ^ cfg.w ≤ totalWeight s.pl ∧
      coalesceList cfg s = raise .weightOverflow (encode .coall) s) ∨
    (s.nnodes.toNat + (s.pl.length - 1) ≤ cfg.nodeCap ∧ (s.pl.length < 2 ∨ totalWeight s.pl < 2 ^ cfg.w) ∧
      coalesceList cfg s = respond 0 (((s.setPl (coalesceAll s.pl)).setNNodes
        (BitVec.ofNat 9 (s.nnodes.toNat + (s.pl.length - 1)))).setTree (coalesceAll s.pl).head?)) := by
  by_cases h1 : s.nnodes.toNat + (s.pl.length - 1) > cfg.nodeCap
  · exact .inl ⟨h1, if_pos h1⟩
  · by_cases h2 : s.pl.length ≥ 2 ∧ totalWeight s.pl ≥ 2 ^ cfg.w
    · exact .inr (.inl ⟨by omega, h2.1, h2.2, (if_neg h1).trans (if_pos h2)⟩)
    · exact .inr (.inr ⟨by omega, by omega, (if_neg h1).trans (if_neg h2)⟩)

/-- BUILD (R146). -/
theorem buildTree_cases (cfg : Config) (s : State) :
    (2 ≤ (baseList cfg s.freq).length ∧
      2 ^ cfg.w ≤ totalWeight (baseList cfg s.freq) ∧
      buildTree cfg s = raise .weightOverflow (encode .build) s) ∨
    (((baseList cfg s.freq).length < 2 ∨
        totalWeight (baseList cfg s.freq) < 2 ^ cfg.w) ∧
      buildTree cfg s = respond 0
        (((s.setPl (coalesceAll (initialSort (baseList cfg s.freq)))).setNNodes
          (BitVec.ofNat 9 ((baseList cfg s.freq).length +
            ((baseList cfg s.freq).length - 1)))).setTree
          (coalesceAll (initialSort (baseList cfg s.freq))).head?)) := by
  by_cases h : (baseList cfg s.freq).length ≥ 2 ∧
      totalWeight (baseList cfg s.freq) ≥ 2 ^ cfg.w
  · exact .inl ⟨h.1, h.2, if_pos h⟩
  · exact .inr ⟨by omega, if_neg h⟩

/-- BITS (R177). -/
theorem appendRaw_cases (cfg : Config) (n : BitVec 5) (pat : BitVec 16) (s : State) :
    (cfg.bitsMax < n.toNat ∧
      appendRaw cfg n pat s = raise .illegalCommand (encode (.bits n pat)) s) ∨
    (n.toNat ≤ cfg.bitsMax ∧
      appendRaw cfg n pat s = respond 0 (appendBits s (rawBits n pat))) := by
  by_cases h : n.toNat > cfg.bitsMax
  · exact .inl ⟨h, if_pos h⟩
  · exact .inr ⟨by omega, if_neg h⟩

/-! ## The base list (R114) -/

theorem mem_baseListIn {cfg : Config} {f : FreqTable} {t : HuffTree} : t ∈ baseList cfg f ↔
    ∃ a : Symbol, (cfg.zeroLeaves = true ∨ readSym f a ≠ 0) ∧ t = .leaf (readSym f a) a := by
  unfold baseList
  rw [List.mem_map]
  constructor
  · rintro ⟨a, ha, rfl⟩
    exact ⟨a, by simpa using (List.mem_filter.1 ha).2, rfl⟩
  · rintro ⟨a, ha, rfl⟩
    exact ⟨a, List.mem_filter.2 ⟨mem_allSymbols a, by simpa using ha⟩, rfl⟩

theorem mem_baseList {f : FreqTable} {t : HuffTree} : t ∈ baseList Config.hardware f ↔
    ∃ a : Symbol, readSym f a ≠ 0 ∧ t = .leaf (readSym f a) a := by
  simp [mem_baseListIn]

theorem length_baseList_le (cfg : Config) (f : FreqTable) : (baseList cfg f).length ≤ 256 := by
  rw [baseList, List.length_map, ← length_allSymbols]
  exact List.length_filter_le _ _

theorem baseList_pairwise (cfg : Config) (f : FreqTable) :
    (baseList cfg f).Pairwise fun x y => x.rep.toNat < y.rep.toNat := by
  rw [baseList, List.pairwise_map]
  exact (allSymbols_ascending.filter _).imp fun h => h

/-- The base list has two entries or more exactly when two different symbols get a leaf (R202). -/
theorem two_le_length_baseList {cfg : Config} {f : FreqTable} : 2 ≤ (baseList cfg f).length ↔
    ∃ a b : Symbol, a ≠ b ∧ (cfg.zeroLeaves = true ∨ (readSym f a ≠ 0 ∧ readSym f b ≠ 0)) := by
  constructor
  · intro h
    rcases hl : baseList cfg f with _ | ⟨x, _ | ⟨y, r⟩⟩
    · simp [hl] at h
    · simp [hl] at h
    · have hp := baseList_pairwise cfg f
      obtain ⟨a, ha, rfl⟩ := mem_baseListIn.1 (hl ▸ List.mem_cons_self : x ∈ baseList cfg f)
      obtain ⟨b, hb, rfl⟩ := mem_baseListIn.1
        (hl ▸ List.mem_cons_of_mem _ List.mem_cons_self : y ∈ baseList cfg f)
      rw [hl] at hp
      have hlt := (List.pairwise_cons.1 hp).1 _ List.mem_cons_self
      refine ⟨a, b, fun e => Nat.lt_irrefl a.toNat (e ▸ hlt), ?_⟩
      tauto
  · rintro ⟨a, b, hab, h⟩
    have ha := mem_baseListIn.2 ⟨a, by tauto, rfl⟩
    have hb := mem_baseListIn.2 ⟨b, by tauto, rfl⟩
    rcases hl : baseList cfg f with _ | ⟨x, _ | ⟨y, r⟩⟩
    · simp [hl] at ha
    · rw [hl, List.mem_singleton] at ha hb
      rw [← ha] at hb
      injection hb with _ e
      exact absurd e.symm hab
    · simp

theorem baseList_symbols (cfg : Config) (f : FreqTable) :
    ((baseList cfg f).flatMap HuffTree.symbols) =
      allSymbols.filter fun s => cfg.zeroLeaves || readSym f s != 0 := by
  rw [baseList]
  generalize (allSymbols.filter fun s => cfg.zeroLeaves || readSym f s != 0) = l
  induction l with
  | nil => rfl
  | cons x xs ih => simp [HuffTree.symbols, ih]

/-- The leaves weigh the sum of all counts: a symbol left out has count zero (R147 (a)). -/
theorem totalWeight_baseList (cfg : Config) (f : FreqTable) : totalWeight (baseList cfg f) =
    (allSymbols.map fun a => (readSym f a).toNat).sum := by
  rw [baseList, totalWeight, List.map_map]
  generalize allSymbols = l
  induction l with
  | nil => rfl
  | cons x xs ih =>
    cases hx : cfg.zeroLeaves || readSym f x != 0 with
    | false =>
      have h0 : readSym f x = 0 := by simpa using (Bool.or_eq_false_iff.1 hx).2
      simp only [List.filter_cons, hx, Bool.false_eq_true, if_false]
      rw [ih, List.map_cons, List.sum_cons, h0]
      simp
    | true =>
      simp only [List.filter_cons, hx, if_true]
      rw [List.map_cons, List.sum_cons, ih, List.map_cons, List.sum_cons]
      rfl

theorem totalSize_baseList (cfg : Config) (f : FreqTable) :
    totalSize (baseList cfg f) = (baseList cfg f).length := by
  rw [baseList, totalSize, List.map_map, List.length_map]
  generalize (allSymbols.filter fun s => cfg.zeroLeaves || readSym f s != 0) = l
  induction l with
  | nil => rfl
  | cons x xs ih =>
    rw [List.map_cons, List.sum_cons, ih, List.length_cons]
    exact Nat.add_comm _ _

theorem baseList_ok (cfg : Config) (f : FreqTable) : ∀ t ∈ baseList cfg f, t.ok = true := by
  intro t ht
  obtain ⟨a, -, rfl⟩ := List.mem_map.1 ht
  rfl

end Sys2Proof.Machine
end

