-- ==== Sys2Proof/Laws/Faults.lean ====
section
/-! SUPPORT. The inversion of `execIn` and `exec` on a block that is not halted: which fault a command
takes, or that it takes none (60_exceptions.md R195, R198, R207). -/

namespace Sys2Proof.Machine

/-- Executing a command while no fault is latched: either one fault has its cause and is taken, and no
other has, or no fault has its cause, none is latched, and the response is OK (R195, R198, R207). -/
theorem execIn_running_cases (cfg : Config) (i : Instr) (s t : State) (hs : s.fault = none)
    (h : execIn cfg i s = .next t) :
    (∃ k, FaultCauseIn cfg i s k ∧ (∀ k', FaultCauseIn cfg i s k' → k' = k) ∧ t = raise k (encode i) s) ∨
      ((∀ k, ¬ FaultCauseIn cfg i s k) ∧ t.fault = none ∧ t.input = s.input ∧
        ∃ d, t.rsp = s.rsp ++ [⟨.ok, d⟩]) := by
  have appF : ∀ b, (appendBits s b).fault = s.fault ∧ (appendBits s b).rsp = s.rsp ∧ (appendBits s b).input = s.input := fun b => by
    rw [appendBits_frame]; exact ⟨rfl, rfl, rfl⟩
  cases i
  case nop =>
    right
    cases h
    exact ⟨by rintro (_ | _) <;> simp [FaultCauseIn, Instr.wfIn], hs, rfl, _, rfl⟩
  case rst =>
    right
    cases h
    exact ⟨by rintro (_ | _) <;> simp [FaultCauseIn, Instr.wfIn], rfl, rfl, _, rfl⟩
  case stat =>
    right
    cases h
    exact ⟨by rintro (_ | _) <;> simp [FaultCauseIn, Instr.wfIn], hs, rfl, _, rfl⟩
  case errack =>
    right
    cases h
    exact ⟨by rintro (_ | _) <;> simp [FaultCauseIn, Instr.wfIn], rfl, rfl, _, rfl⟩
  case fclr =>
    right
    cases (exec_fclr hs).symm.trans h
    exact ⟨by rintro (_ | _) <;> simp [FaultCauseIn, Instr.wfIn], hs, rfl, _, rfl⟩
  case frd =>
    right
    cases (exec_frd hs _).symm.trans h
    exact ⟨by rintro (_ | _) <;> simp [FaultCauseIn, Instr.wfIn], hs, rfl, _, rfl⟩
  case plclr =>
    right
    cases (exec_plclr hs).symm.trans h
    exact ⟨by rintro (_ | _) <;> simp [FaultCauseIn, Instr.wfIn], hs, rfl, _, rfl⟩
  case base =>
    right
    rw [execIn_base hs] at h
    cases h
    exact ⟨by rintro (_ | _) <;> simp [FaultCauseIn, Instr.wfIn], hs, rfl, _, rfl⟩
  case sort =>
    right
    cases (exec_sort hs).symm.trans h
    exact ⟨by rintro (_ | _) <;> simp [FaultCauseIn, Instr.wfIn], hs, rfl, _, rfl⟩
  case pllen =>
    right
    cases (exec_pllen hs).symm.trans h
    exact ⟨by rintro (_ | _) <;> simp [FaultCauseIn, Instr.wfIn], hs, rfl, _, rfl⟩
  case ctbld =>
    right
    cases (exec_ctbld hs).symm.trans h
    exact ⟨by rintro (_ | _) <;> simp [FaultCauseIn, Instr.wfIn], hs, rfl, _, rfl⟩
  case ctlen =>
    right
    cases (exec_ctlen hs _).symm.trans h
    exact ⟨by rintro (_ | _) <;> simp [FaultCauseIn, Instr.wfIn], hs, rfl, _, rfl⟩
  case ctrd =>
    right
    cases (exec_ctrd hs _ _).symm.trans h
    exact ⟨by rintro (_ | _) <;> simp [FaultCauseIn, Instr.wfIn], hs, rfl, _, rfl⟩
  case bpclr =>
    right
    cases (exec_bpclr hs).symm.trans h
    exact ⟨by rintro (_ | _) <;> simp [FaultCauseIn, Instr.wfIn], hs, rfl, _, rfl⟩
  case flush =>
    right
    cases (flushPending_eq s ▸ exec_flush hs).symm.trans h
    exact ⟨by rintro (_ | _) <;> simp [FaultCauseIn, Instr.wfIn], hs, rfl, _, rfl⟩
  case enc v =>
    right; cases (exec_enc hs _).symm.trans h
    obtain ⟨h1, h2, h3⟩ := appF (codeOf s.ct v)
    exact ⟨by rintro (_ | _) <;> simp [FaultCauseIn, Instr.wfIn], h1.trans hs, h3, _, by rw [respond_rsp, h2]⟩
  case bits n pat =>
    rw [execIn_bits hs] at h; cases h
    rcases appendRaw_cases cfg n pat s with ⟨hn, he⟩ | ⟨hn, he⟩
    · left; refine ⟨.illegalCommand, ?_, ?_, he⟩
      · exact decide_eq_false (Nat.not_le.2 hn)
      · rintro (_ | _) <;> simp [FaultCauseIn]
    · right; rw [he]; obtain ⟨h1, h2, h3⟩ := appF (rawBits n pat)
      exact ⟨by rintro (_ | _) <;> simp [FaultCauseIn, Instr.wfIn, hn], h1.trans hs, h3, _, by rw [respond_rsp, h2]⟩
  case cnt v =>
    rw [execIn_cnt hs] at h; cases h
    rcases countElement_cases cfg v s with ⟨hn, he⟩ | ⟨a, hn, ⟨hv, he⟩ | ⟨hv, he⟩⟩
    · right; rw [he]; refine ⟨?_, hs, rfl, _, rfl⟩
      rintro (_ | _) <;> simp [FaultCauseIn, Instr.wfIn]
      intro b hb; have := b.isLt; omega
    · left; refine ⟨.countOverflow, ⟨v, rfl, a, hn, hv⟩, ?_, he⟩
      rintro (_ | _) <;> simp [FaultCauseIn, Instr.wfIn]
    · right; rw [he]; refine ⟨?_, hs, rfl, _, rfl⟩
      rintro (_ | _) <;> simp [FaultCauseIn, Instr.wfIn]
      intro b hb; have : b = a := BitVec.eq_of_toNat_eq (by omega)
      subst this; omega
  case plapp a w =>
    rw [execIn_plapp hs] at h; cases h
    rcases addLeaf_cases cfg (.plapp a w) (s.pl ++ [.leaf (leafWeight cfg w) a]) s with ⟨hn, he⟩ | ⟨hn, h2, he⟩ | ⟨hn, h2, he⟩
    · left; refine ⟨.listFull, ⟨⟨a, w, .inl rfl⟩, hn⟩, ?_, he⟩
      rintro (_ | _) <;> simp [FaultCauseIn, Instr.wfIn]; intros; contradiction
    · left; refine ⟨.arenaFull, .inl ⟨⟨a, w, .inl rfl⟩, hn, h2⟩, ?_, he⟩
      rintro (_ | _) <;> simp [FaultCauseIn, Instr.wfIn, hn]
    · right; rw [he]; refine ⟨?_, hs, rfl, _, rfl⟩
      rintro (_ | _) <;> simp [FaultCauseIn, Instr.wfIn, hn, h2]
  case plins a w =>
    rw [execIn_plins hs] at h; cases h
    rcases addLeaf_cases cfg (.plins a w) (insertTree s.pl (.leaf (leafWeight cfg w) a)) s with ⟨hn, he⟩ | ⟨hn, h2, he⟩ | ⟨hn, h2, he⟩
    · left; refine ⟨.listFull, ⟨⟨a, w, .inr rfl⟩, hn⟩, ?_, he⟩
      rintro (_ | _) <;> simp [FaultCauseIn, Instr.wfIn]; intros; contradiction
    · left; refine ⟨.arenaFull, .inl ⟨⟨a, w, .inr rfl⟩, hn, h2⟩, ?_, he⟩
      rintro (_ | _) <;> simp [FaultCauseIn, Instr.wfIn, hn]
    · right; rw [he]; refine ⟨?_, hs, rfl, _, rfl⟩
      rintro (_ | _) <;> simp [FaultCauseIn, Instr.wfIn, hn, h2]
  case plrdw k =>
    cases (exec_plrdw hs _).symm.trans h
    rcases readEntry_cases (.plrdw k) k (fun t => t.weight) s with ⟨hn, he⟩ | ⟨hn, he⟩
    · left; refine ⟨.index, .inl ⟨k, .inl rfl, hn⟩, ?_, he⟩
      rintro (_ | _) <;> simp [FaultCauseIn, Instr.wfIn]
    · right; rw [he]; refine ⟨?_, hs, rfl, _, rfl⟩
      rintro (_ | _) <;> simp [FaultCauseIn, Instr.wfIn, hn]
  case plrdk k =>
    cases (exec_plrdk hs _).symm.trans h
    rcases readEntry_cases (.plrdk k) k kindAndRep s with ⟨hn, he⟩ | ⟨hn, he⟩
    · left; refine ⟨.index, .inl ⟨k, .inr rfl, hn⟩, ?_, he⟩
      rintro (_ | _) <;> simp [FaultCauseIn, Instr.wfIn]
    · right; rw [he]; refine ⟨?_, hs, rfl, _, rfl⟩
      rintro (_ | _) <;> simp [FaultCauseIn, Instr.wfIn, hn]
  case pllt k j =>
    cases (exec_pllt hs _ _).symm.trans h
    rcases compareEntries_cases k j s with ⟨hn, he⟩ | ⟨hn, h2, he⟩
    · left; refine ⟨.index, .inr ⟨k, j, rfl, hn⟩, ?_, he⟩
      rintro (_ | _) <;> simp [FaultCauseIn, Instr.wfIn]
    · right; rw [he]; refine ⟨?_, hs, rfl, _, rfl⟩
      rintro (_ | _) <;> simp [FaultCauseIn, Instr.wfIn, hn]
      exact h2
  case co1 =>
    rw [execIn_co1 hs] at h; cases h
    rcases coalesceStep_cases cfg s with ⟨hn, he⟩ | ⟨a, b, rest, hp, ⟨hn, he⟩ | ⟨hn, h2, he⟩ | ⟨hn, h2, he⟩⟩
    · left; refine ⟨.underflow, ⟨rfl, hn⟩, ?_, he⟩
      rintro (_ | _) <;> simp [FaultCauseIn, Instr.wfIn]
      · intro _ a b rest hp; rw [hp] at hn; simp at hn
      · omega
    · left; refine ⟨.arenaFull, .inr (.inl ⟨rfl, by simp [hp], hn⟩), ?_, he⟩
      rintro (_ | _) <;> simp [FaultCauseIn, Instr.wfIn, hp, hn]
    · left; refine ⟨.weightOverflow, .inl ⟨rfl, hn, a, b, rest, hp, h2⟩, ?_, he⟩
      rintro (_ | _) <;> simp [FaultCauseIn, Instr.wfIn, hp, hn]
    · right; rw [he]; refine ⟨?_, hs, rfl, _, rfl⟩
      rintro (_ | _) <;> simp [FaultCauseIn, Instr.wfIn, hp, hn]
      exact h2
  case coall =>
    rw [execIn_coall hs] at h; cases h
    rcases coalesceList_cases cfg s with ⟨hn, he⟩ | ⟨hn, h2, h3, he⟩ | ⟨hn, h2, he⟩
    · left; refine ⟨.arenaFull, .inr (.inr ⟨rfl, hn⟩), ?_, he⟩
      rintro (_ | _) <;> simp [FaultCauseIn, Instr.wfIn]
      omega
    · left; refine ⟨.weightOverflow, .inr (.inl ⟨rfl, hn, h2, h3⟩), ?_, he⟩
      rintro (_ | _) <;> simp [FaultCauseIn, Instr.wfIn]
      omega
    · right; rw [he]; refine ⟨?_, hs, rfl, _, rfl⟩
      rintro (_ | _) <;> simp [FaultCauseIn, Instr.wfIn]
      · intros; unfold totalWeight at h2; omega
      · omega
  case build =>
    rw [execIn_build hs] at h; cases h
    have htw := totalWeight_baseList cfg s.freq
    rcases buildTree_cases cfg s with ⟨hn, h2, he⟩ | ⟨hn, he⟩
    · left
      refine ⟨.weightOverflow, .inr (.inr ⟨rfl, two_le_length_baseList.1 hn, htw ▸ h2⟩), ?_, he⟩
      rintro (_ | _) <;> simp [FaultCauseIn, Instr.wfIn]
    · right; rw [he]; refine ⟨?_, hs, rfl, _, rfl⟩
      rintro (_ | _) <;> simp [FaultCauseIn, Instr.wfIn]
      intro a b hab hz
      have h2 := two_le_length_baseList.2 ⟨a, b, hab, hz⟩
      omega

/-- The same for `exec`. -/
theorem exec_running_cases (i : Instr) (s t : State) (hs : s.fault = none) (h : exec i s = .next t) :
    (∃ k, FaultCause i s k ∧ (∀ k', FaultCause i s k' → k' = k) ∧ t = raise k (encode i) s) ∨
      ((∀ k, ¬ FaultCause i s k) ∧ t.fault = none ∧ t.input = s.input ∧
        ∃ d, t.rsp = s.rsp ++ [⟨.ok, d⟩]) :=
  execIn_running_cases Config.hardware i s t hs ((execIn_hardware i s).trans h)

end Sys2Proof.Machine
end

