-- ==== Sys2Proof/Laws/PerInstr.lean ====
section
/-! SUPPORT. The per-instruction family EncodedRow: the word of every command is found in the opcode map
by its opcode byte, passes the reserved-field check of its row, and its fields give the command back
(30_encoding.md R61, R63, R66). -/

namespace Sys2Proof.Laws.EncodedRow

/-- What the family says of one command. -/
def Statement (i : Instr) : Prop :=
  ∃ r, opcodeRow (opField (encode i)) = some r ∧ encode i &&& r.format.mask = r.matchWord ∧
    r.build (encode i) = i

/-- A command has the family's property when its word's number is its row's opcode byte above the free
bits of the row's format. -/
theorem of_number {i : Instr} (r : OpcodeRow) (n : Nat) (hn : (encode i).toNat = n)
    (hrow : opcodeRow r.op = some r) (hop : n / 2 ^ 24 % 2 ^ 8 = r.op.toNat)
    (hm : n / 2 ^ r.format.freeBits = r.op.toNat * 2 ^ (24 - r.format.freeBits))
    (hb : r.build (encode i) = i) : Statement i := by
  have hop' : opField (encode i) = r.op := by
    refine BitVec.eq_of_toNat_eq ?_
    rw [opField, field_toNat, hn, hop]
  exact ⟨r, by rw [hop', hrow], (matches_iff _ _).2 (by rw [hn, hm]), hb⟩

theorem nop : Statement .nop := ⟨⟨0x00, .z, fun _ => .nop⟩, rfl, by decide, rfl⟩

theorem rst : Statement .rst := ⟨⟨0x01, .z, fun _ => .rst⟩, rfl, by decide, rfl⟩

theorem stat : Statement .stat := ⟨⟨0x02, .z, fun _ => .stat⟩, rfl, by decide, rfl⟩

theorem errack : Statement .errack := ⟨⟨0x03, .z, fun _ => .errack⟩, rfl, by decide, rfl⟩

theorem fclr : Statement .fclr := ⟨⟨0x10, .z, fun _ => .fclr⟩, rfl, by decide, rfl⟩

theorem plclr : Statement .plclr := ⟨⟨0x20, .z, fun _ => .plclr⟩, rfl, by decide, rfl⟩

theorem base : Statement .base := ⟨⟨0x21, .z, fun _ => .base⟩, rfl, by decide, rfl⟩

theorem sort : Statement .sort := ⟨⟨0x24, .z, fun _ => .sort⟩, rfl, by decide, rfl⟩

theorem pllen : Statement .pllen := ⟨⟨0x25, .z, fun _ => .pllen⟩, rfl, by decide, rfl⟩

theorem co1 : Statement .co1 := ⟨⟨0x30, .z, fun _ => .co1⟩, rfl, by decide, rfl⟩

theorem coall : Statement .coall := ⟨⟨0x31, .z, fun _ => .coall⟩, rfl, by decide, rfl⟩

theorem build : Statement .build := ⟨⟨0x32, .z, fun _ => .build⟩, rfl, by decide, rfl⟩

theorem ctbld : Statement .ctbld := ⟨⟨0x40, .z, fun _ => .ctbld⟩, rfl, by decide, rfl⟩

theorem flush : Statement .flush := ⟨⟨0x52, .z, fun _ => .flush⟩, rfl, by decide, rfl⟩

theorem bpclr : Statement .bpclr := ⟨⟨0x53, .z, fun _ => .bpclr⟩, rfl, by decide, rfl⟩

theorem cnt (v : InputElem) : Statement (.cnt v) := by
  have hnum : (encode (.cnt v)).toNat = 0x11 * 2 ^ 24 + v.toNat := formatV_toNat _ v
  have hv : v.toNat < 2 ^ 24 := v.isLt
  refine of_number ⟨0x11, .v, fun w => .cnt (vField w)⟩ _ hnum rfl ?_ ?_ ?_
  · change _ = 0x11
    omega
  · change _ / 2 ^ 24 = 0x11 * 2 ^ 0
    omega
  · refine congrArg Instr.cnt (BitVec.eq_of_toNat_eq ((field_toNat _ 0 24).trans ?_))
    rw [hnum]
    omega

theorem enc (v : InputElem) : Statement (.enc v) := by
  have hnum : (encode (.enc v)).toNat = 0x50 * 2 ^ 24 + v.toNat := formatV_toNat _ v
  have hv : v.toNat < 2 ^ 24 := v.isLt
  refine of_number ⟨0x50, .v, fun w => .enc (vField w)⟩ _ hnum rfl ?_ ?_ ?_
  · change _ = 0x50
    omega
  · change _ / 2 ^ 24 = 0x50 * 2 ^ 0
    omega
  · refine congrArg Instr.enc (BitVec.eq_of_toNat_eq ((field_toNat _ 0 24).trans ?_))
    rw [hnum]
    omega

theorem frd (s : Symbol) : Statement (.frd s) := by
  have hnum : (encode (.frd s)).toNat = 0x12 * 2 ^ 24 + s.toNat := formatS_toNat _ s
  have hs : s.toNat < 2 ^ 8 := s.isLt
  refine of_number ⟨0x12, .s, fun w => .frd (sField w)⟩ _ hnum rfl ?_ ?_ ?_
  · change _ = 0x12
    omega
  · change _ / 2 ^ 8 = 0x12 * 2 ^ 16
    omega
  · refine congrArg Instr.frd (BitVec.eq_of_toNat_eq ((field_toNat _ 0 8).trans ?_))
    rw [hnum]
    omega

theorem ctlen (s : Symbol) : Statement (.ctlen s) := by
  have hnum : (encode (.ctlen s)).toNat = 0x41 * 2 ^ 24 + s.toNat := formatS_toNat _ s
  have hs : s.toNat < 2 ^ 8 := s.isLt
  refine of_number ⟨0x41, .s, fun w => .ctlen (sField w)⟩ _ hnum rfl ?_ ?_ ?_
  · change _ = 0x41
    omega
  · change _ / 2 ^ 8 = 0x41 * 2 ^ 16
    omega
  · refine congrArg Instr.ctlen (BitVec.eq_of_toNat_eq ((field_toNat _ 0 8).trans ?_))
    rw [hnum]
    omega

theorem plapp (s : Symbol) (w : BitVec 16) : Statement (.plapp s w) := by
  have hnum : (encode (.plapp s w)).toNat = 0x22 * 2 ^ 24 + s.toNat * 2 ^ 16 + w.toNat := formatL_toNat _ s w
  have hs : s.toNat < 2 ^ 8 := s.isLt
  have hw : w.toNat < 2 ^ 16 := w.isLt
  refine of_number ⟨0x22, .l, fun w => .plapp (leafSymbolField w) (leafWeightField w)⟩ _ hnum rfl ?_ ?_ ?_
  · change _ = 0x22
    omega
  · change _ / 2 ^ 24 = 0x22 * 2 ^ 0
    omega
  · refine congrArg₂ Instr.plapp (BitVec.eq_of_toNat_eq ((field_toNat _ 16 8).trans ?_))
      (BitVec.eq_of_toNat_eq ((field_toNat _ 0 16).trans ?_))
    all_goals rw [hnum]; omega

theorem plins (s : Symbol) (w : BitVec 16) : Statement (.plins s w) := by
  have hnum : (encode (.plins s w)).toNat = 0x23 * 2 ^ 24 + s.toNat * 2 ^ 16 + w.toNat := formatL_toNat _ s w
  have hs : s.toNat < 2 ^ 8 := s.isLt
  have hw : w.toNat < 2 ^ 16 := w.isLt
  refine of_number ⟨0x23, .l, fun w => .plins (leafSymbolField w) (leafWeightField w)⟩ _ hnum rfl ?_ ?_ ?_
  · change _ = 0x23
    omega
  · change _ / 2 ^ 24 = 0x23 * 2 ^ 0
    omega
  · refine congrArg₂ Instr.plins (BitVec.eq_of_toNat_eq ((field_toNat _ 16 8).trans ?_))
      (BitVec.eq_of_toNat_eq ((field_toNat _ 0 16).trans ?_))
    all_goals rw [hnum]; omega

theorem plrdw (i : ListIndex) : Statement (.plrdw i) := by
  have hnum : (encode (.plrdw i)).toNat = 0x26 * 2 ^ 24 + i.toNat := formatI_toNat _ i
  have hi : i.toNat < 2 ^ 12 := i.isLt
  refine of_number ⟨0x26, .i, fun w => .plrdw (iField w)⟩ _ hnum rfl ?_ ?_ ?_
  · change _ = 0x26
    omega
  · change _ / 2 ^ 12 = 0x26 * 2 ^ 12
    omega
  · refine congrArg Instr.plrdw (BitVec.eq_of_toNat_eq ((field_toNat _ 0 12).trans ?_))
    rw [hnum]
    omega

theorem plrdk (i : ListIndex) : Statement (.plrdk i) := by
  have hnum : (encode (.plrdk i)).toNat = 0x27 * 2 ^ 24 + i.toNat := formatI_toNat _ i
  have hi : i.toNat < 2 ^ 12 := i.isLt
  refine of_number ⟨0x27, .i, fun w => .plrdk (iField w)⟩ _ hnum rfl ?_ ?_ ?_
  · change _ = 0x27
    omega
  · change _ / 2 ^ 12 = 0x27 * 2 ^ 12
    omega
  · refine congrArg Instr.plrdk (BitVec.eq_of_toNat_eq ((field_toNat _ 0 12).trans ?_))
    rw [hnum]
    omega

theorem pllt (i j : ListIndex) : Statement (.pllt i j) := by
  have hnum : (encode (.pllt i j)).toNat = 0x28 * 2 ^ 24 + j.toNat * 2 ^ 12 + i.toNat := formatJ_toNat _ i j
  have hi : i.toNat < 2 ^ 12 := i.isLt
  have hj : j.toNat < 2 ^ 12 := j.isLt
  refine of_number ⟨0x28, .j, fun w => .pllt (iField w) (jField w)⟩ _ hnum rfl ?_ ?_ ?_
  · change _ = 0x28
    omega
  · change _ / 2 ^ 24 = 0x28 * 2 ^ 0
    omega
  · refine congrArg₂ Instr.pllt (BitVec.eq_of_toNat_eq ((field_toNat _ 0 12).trans ?_))
      (BitVec.eq_of_toNat_eq ((field_toNat _ 12 12).trans ?_))
    all_goals rw [hnum]; omega

theorem ctrd (s : Symbol) (c : BitVec 3) : Statement (.ctrd s c) := by
  have hnum : (encode (.ctrd s c)).toNat = 0x42 * 2 ^ 24 + c.toNat * 2 ^ 8 + s.toNat := formatC_toNat _ s c
  have hs : s.toNat < 2 ^ 8 := s.isLt
  have hc : c.toNat < 2 ^ 3 := c.isLt
  refine of_number ⟨0x42, .c, fun w => .ctrd (sField w) (cField w)⟩ _ hnum rfl ?_ ?_ ?_
  · change _ = 0x42
    omega
  · change _ / 2 ^ 11 = 0x42 * 2 ^ 13
    omega
  · refine congrArg₂ Instr.ctrd (BitVec.eq_of_toNat_eq ((field_toNat _ 0 8).trans ?_))
      (BitVec.eq_of_toNat_eq ((field_toNat _ 8 3).trans ?_))
    all_goals rw [hnum]; omega

theorem bits (n : BitVec 5) (pat : BitVec 16) : Statement (.bits n pat) := by
  have hnum : (encode (.bits n pat)).toNat = 0x51 * 2 ^ 24 + n.toNat * 2 ^ 16 + pat.toNat := formatB_toNat _ n pat
  have hn : n.toNat < 2 ^ 5 := n.isLt
  have hpat : pat.toNat < 2 ^ 16 := pat.isLt
  refine of_number ⟨0x51, .b, fun w => .bits (nField w) (patField w)⟩ _ hnum rfl ?_ ?_ ?_
  · change _ = 0x51
    omega
  · change _ / 2 ^ 21 = 0x51 * 2 ^ 3
    omega
  · refine congrArg₂ Instr.bits (BitVec.eq_of_toNat_eq ((field_toNat _ 16 5).trans ?_))
      (BitVec.eq_of_toNat_eq ((field_toNat _ 0 16).trans ?_))
    all_goals rw [hnum]; omega

end Sys2Proof.Laws.EncodedRow
end

