-- ==== Sys2Proof/Laws/Runs.lean ====
section
/-! SUPPORT. The laws of runs of several commands and of the bits they append: `execAll` cut in two,
fault-free runs (60_exceptions.md R210), what `append_bits` leaves alone, and the chunks of
`BITSTR` (30_encoding.md R79). -/

namespace Sys2Proof.Machine

/-! ## Runs -/

/-- A run is its first part followed by the rest, since every command ends in a next state. -/
theorem execAll_append {is js : List Instr} {s t : State} (h : execAll is s = .next t) :
    execAll (is ++ js) s = execAll js t := by
  induction is generalizing s with
  | nil =>
    cases h
    rfl
  | cons i is ih =>
    obtain ⟨u, hu⟩ := exec_total i s
    simp only [execAll, hu, List.cons_append] at h ⊢
    exact ih h

theorem faultFree_start {is : List Instr} {s : State} (h : FaultFree is s) : s.fault = none := by
  cases is with
  | nil => exact h
  | cons i is => exact h.1

theorem faultFree_end {is : List Instr} {s t : State} (h : FaultFree is s)
    (he : execAll is s = .next t) : t.fault = none := by
  induction is generalizing s with
  | nil =>
    cases he
    exact h
  | cons i is ih =>
    obtain ⟨u, hu⟩ := exec_total i s
    simp only [execAll, hu] at he
    exact ih (h.2 u hu) he

/-! ## What `append_bits` leaves alone (R176, "State written") -/

theorem appendBits_fields (s : State) (b : BitString) :
    (appendBits s b).freq = s.freq ∧ (appendBits s b).pl = s.pl ∧ (appendBits s b).tree = s.tree ∧
      (appendBits s b).nnodes = s.nnodes ∧ (appendBits s b).ct = s.ct ∧
      (appendBits s b).fault = s.fault ∧ (appendBits s b).rsp = s.rsp ∧
      (appendBits s b).input = s.input := by
  rw [appendBits_frame]
  exact ⟨rfl, rfl, rfl, rfl, rfl, rfl, rfl, rfl⟩

/-! ## Bit-strings as numbers, and the chunks of `BITSTR` (R79) -/

theorem bitChunks_spec (n : Nat) (b : BitString) (h : b.length ≤ n) :
    (bitChunks n b).flatten = b ∧ ∀ q ∈ bitChunks n b, q.length ≤ 16 := by
  induction n generalizing b with
  | zero =>
    obtain rfl : b = [] := List.length_eq_zero_iff.1 (by omega)
    simp [bitChunks]
  | succ n ih =>
    rcases b with _ | ⟨x, xs⟩
    · simp [bitChunks]
    · obtain ⟨h1, h2⟩ := ih ((x :: xs).drop 16) (by simp at h ⊢; omega)
      refine ⟨by rw [bitChunks, List.flatten_cons, h1, List.take_append_drop], fun q hq => ?_⟩
      rcases List.mem_cons.1 hq with rfl | hq
      · simp
      · exact h2 q hq

/-- Bit `length − 1 − k` of the value of a bit-string is its element `k` (R79, `value(q)`). -/
theorem bitValue_testBit (q : BitString) {k : Nat} (h : k < q.length) :
    (bitValue q).testBit (q.length - 1 - k) = q[k] := by
  induction q using List.reverseRecOn generalizing k with
  | nil => simp at h
  | append_singleton q b ih =>
    have hv : bitValue (q ++ [b]) = 2 * bitValue q + b.toNat := by simp [bitValue]
    have hl : (q ++ [b]).length = q.length + 1 := by simp
    rw [hv, hl]
    by_cases hk : k < q.length
    · rw [List.getElem_append_left hk, ← ih hk,
        show q.length + 1 - 1 - k = (q.length - 1 - k) + 1 by omega, Nat.testBit_succ]
      congr 1
      cases b
      · simp
      · simp
        omega
    · rw [List.getElem_append_right (by omega), show q.length + 1 - 1 - k = 0 by omega]
      cases b <;> simp [Nat.testBit_zero]

/-- The BITS command of a chunk appends that chunk (R79, R177). -/
theorem rawBits_of_chunk {q : BitString} (h : q.length ≤ 16) :
    rawBits (BitVec.ofNat 5 q.length) (BitVec.ofNat 16 (bitValue q)) = q := by
  have hl : (BitVec.ofNat 5 q.length).toNat = q.length := by
    rw [BitVec.toNat_ofNat]
    omega
  refine List.ext_getElem (by rw [rawBits, List.length_map, List.length_range, hl]) fun i _ h2 => ?_
  have hi : q.length - 1 - i < 16 := by omega
  simp only [rawBits, List.getElem_map, List.getElem_range, hl]
  rw [BitVec.getLsbD_ofNat, bitValue_testBit q h2]
  simp [hi]

/-- The commands of `BITSTR "bits"` append exactly the bits (R79). -/
theorem expandBits_appended (b : BitString) (ct : CodeTable) :
    (expandBits b).flatMap (appendedBits ct) = b := by
  obtain ⟨h1, h2⟩ := bitChunks_spec b.length b (Nat.le_refl _)
  unfold expandBits
  conv_rhs => rw [← h1]
  generalize bitChunks b.length b = l at h2
  clear h1
  induction l with
  | nil => rfl
  | cons q qs ih =>
    rw [List.map_cons, List.flatMap_cons, List.flatten_cons, ih fun q hq => h2 q (by simp [hq])]
    congr 1
    exact rawBits_of_chunk (h2 q (by simp))

end Sys2Proof.Machine
end

