-- ==== Sys2Proof/Tests/Slice0.lean ====
section
/-! SUPPORT. Tests with results from the spec's own tables and vectors (95_test_vectors.md, 30_encoding.md
R61 to R63, R80), and for every statement with hypotheses a witness that meets them. -/

-- One theorem after the other: each kernel evaluation has a stack of its own.
set_option Elab.async false

open Sys2Proof Sys2Proof.Machine

namespace Sys2Proof.Tests

/-! ## Helpers -/

/-- A view of the next state, `none` when there is none. -/
def after {α : Type} (r : Result) (f : State → α) : Option α :=
  match r with
  | .next t => some (f t)
  | .fault _ | .refused _ => none

/-- Reset state with these counts. -/
def counted (l : List (Symbol × Weight)) : State :=
  State.reset.setFreq (l.foldl (fun f p => writeSym f p.1 p.2) (clearedTable 0))

/-- Reset state with this priority list and node count. -/
def listed (l : List HuffTree) (n : BitVec 9) : State := (State.reset.setPl l).setNNodes n

/-- Reset state with these codewords. -/
def coded (l : List (Symbol × BitString)) : State :=
  State.reset.setCt (l.foldl (fun c p => writeSym c p.1 p.2) (clearedTable []))

/-- The keys of the list as numbers. -/
def keys (s : State) : List (Nat × Nat) := s.pl.map fun t => (t.weight.toNat, t.rep.toNat)

/-- The tree of `S2T "abc"` (P1). -/
def treeABC : HuffTree := .node 3 97 (.leaf 1 99) (.node 2 97 (.leaf 1 97) (.leaf 1 98))

/-- The tree of `S2T "aaaAAA8"` (V-T7). -/
def treeP5 : HuffTree := .node 7 56 (.leaf 3 97) (.node 4 56 (.leaf 1 56) (.leaf 3 65))

/-- The list of 256 leaves of V-L8. -/
def fullList : List HuffTree := allSymbols.map fun a => .leaf 1 a

/-! ## WellFormed: the one check, and the term it refuses (R62, R64 (c)) -/

theorem test_wf_refuses_bits_17 : (Instr.bits 17 0).wf = false := by decide
theorem test_wf_refuses_bits_31 : (Instr.bits 31 0xFFFF).wf = false := by decide
theorem test_wf_accepts_bits_16 : (Instr.bits 16 0xFFFF).wf = true := by decide
theorem test_wf_follows_bits_max :
    (Instr.bits 9 0).wfIn { Config.hardware with bitsMax := 8 } = false := by decide

/-! ## Configurations (00_scope.md R4, 93_implementation_defined.md U11) -/

/-- Every count a leaf. -/
def zeroLeaves : Config := { Config.hardware with zeroLeaves := true }

/-- A build with every parameter another. -/
def smallBuild : Config :=
  { w := 1, vIn := 9, zeroLeaves := true, listCap := 511, nodeCap := 511, bitsMax := 1 }

theorem test_config_valid : Config.hardware.valid = true ∧ zeroLeaves.valid = true ∧
    smallBuild.valid = true := by decide

/-- U11: each bound. -/
theorem test_config_invalid : ({ smallBuild with w := 0 } : Config).valid = false ∧
    ({ smallBuild with w := 33 } : Config).valid = false ∧
    ({ smallBuild with vIn := 8 } : Config).valid = false ∧
    ({ smallBuild with listCap := 512 } : Config).valid = false ∧
    ({ smallBuild with nodeCap := 510 } : Config).valid = false ∧
    ({ smallBuild with bitsMax := 0 } : Config).valid = false := by decide

/-! ## Decoding: one word written out from R61 to R63 for every command -/

theorem test_decode_control : [0x00000000, 0x01000000, 0x02000000, 0x03000000].map decode =
    [some .nop, some .rst, some .stat, some .errack] := by decide

theorem test_decode_freq : [0x10000000, 0x11000061, 0x11FFFFFF, 0x12000041].map decode =
    [some .fclr, some (.cnt 97), some (.cnt 0xFFFFFF), some (.frd 65)] := by decide

theorem test_decode_list : [0x20000000, 0x21000000, 0x22620002, 0x23610001, 0x24000000].map decode =
    [some .plclr, some .base, some (.plapp 98 2), some (.plins 97 1), some .sort] := by decide

theorem test_decode_list_reads : [0x25000000, 0x26000100, 0x27000001, 0x28001000].map decode =
    [some .pllen, some (.plrdw 256), some (.plrdk 1), some (.pllt 0 1)] := by decide

theorem test_decode_tree : [0x30000000, 0x31000000, 0x32000000].map decode =
    [some .co1, some .coall, some .build] := by decide

theorem test_decode_code : [0x40000000, 0x41000061, 0x42000761].map decode =
    [some .ctbld, some (.ctlen 97), some (.ctrd 97 7)] := by decide

theorem test_decode_packer :
    [0x5001F600, 0x510901FF, 0x5110A5C3, 0x52000000, 0x53000000].map decode =
      [some (.enc 128512), some (.bits 9 0x1FF), some (.bits 16 0xA5C3), some .flush,
        some .bpclr] := by decide

/-- V-C3, V-C5, V-C13, V-C14: each word is illegal. -/
theorem test_decode_refuses : ([0x51110000, 0x32000001, 0x0F000000, 0x13000000, 0x29000000, 0x33000000] ++
    [0x43000000, 0x54000000, 0x60000000, 0x12000100, 0x26001000, 0x42000800, 0x51200000]).map decode =
    List.replicate 13 none := by decide

/-- The three reasons of R64. -/
theorem test_decode_reasons :
    [0x60000000, 0x12000100, 0x51110000].map (fun w => (decodeReason Config.hardware w).toBool) =
      [false, false, false] := by decide

theorem test_encode : [Instr.plins 97 1, .pllt 0 1, .ctrd 97 7, .bits 9 0x1FF, .plrdw 2].map encode =
    [0x23610001, 0x28001000, 0x42000761, 0x510901FF, 0x26000002] := by decide

/-- A row of the opcode table as the host numbers it. -/
theorem test_decodeTableWord : decodeTableWord 32 0x23610001 = some (.plins 97 1) := by decide

/-! ## Control -/

theorem test_nop : after (exec .nop State.reset) (fun t => t.rsp) = some [⟨.ok, 0⟩] := by
  decide +kernel

/-- V-C15. -/
theorem test_rst : after (exec .rst { listed [.leaf 1 97] 1 with
    fault := some .underflow, nb := 3, acc := 5, out := [0x80] })
    (fun t => (t.pl.length, t.nnodes, t.nb, t.fault, t.out)) = some (0, 0, 0, none, [0x80]) := by
  decide +kernel

/-- P4, command 2: NB = 1, ACC = 1. -/
theorem test_stat_pending : after (exec .stat (State.reset.setPending 1 1)) (fun t => t.rsp) =
    some [⟨.ok, 0x120⟩] := by decide +kernel

/-- V-C6: STAT while halted; TV in bit 4. -/
theorem test_stat_halted :
    after (exec .stat ((State.reset.setTree (some treeABC)).setFault (some .illegalCommand)))
      (fun t => t.rsp) = some [⟨.ok, 0x13⟩] := by decide +kernel

/-- V-C4. -/
theorem test_errack : after (exec .errack (State.reset.setFault (some .illegalCommand)))
    (fun t => (t.fault, t.rsp)) = some (none, [⟨.ok, 0⟩]) := by decide +kernel

/-! ## Frequency counter -/

/-- V-F6. -/
theorem test_fclr : after (exec .fclr (counted [(97, 3)])) (fun t => readSym t.freq 97) = some 0 := by
  decide +kernel

/-- V-F5. -/
theorem test_cnt : after (exec (.cnt 97) (counted [(97, 3)]))
    (fun t => (readSym t.freq 97, readSym t.freq 98)) = some (4, 0) := by decide +kernel

/-- V-F3: 0x161 is not truncated to 0x61. -/
theorem test_cnt_above_255 : after (exec (.cnt 0x161) State.reset)
    (fun t => (readSym t.freq 0x61, t.rsp)) = some (0, [⟨.ok, 0⟩]) := by decide +kernel

/-- V-F1. -/
theorem test_frd : after (exec (.frd 97) (counted [(97, 3)])) (fun t => t.rsp) = some [⟨.ok, 3⟩] := by
  decide +kernel

/-! ## Priority list -/

/-- V-L11: PLCLR clears TREE. -/
theorem test_plclr : after (exec .plclr ((listed [treeABC] 5).setTree (some treeABC)))
    (fun t => (t.pl.length, t.tree, t.nnodes)) = some (0, none, 0) := by decide +kernel

/-- V-L1. -/
theorem test_base : after (exec .base (counted [(97, 3), (65, 3), (56, 1)]))
    (fun t => (t.pl, t.nnodes)) = some ([.leaf 1 56, .leaf 3 65, .leaf 3 97], 3) := by decide +kernel

/-- `ZERO_LEAVES` = 1: a leaf for every symbol, the leaf of symbol s at place s (R114). -/
theorem test_base_zero_leaves : after (execIn zeroLeaves .base (counted [(122, 4)]))
    (fun t => (t.pl.length, t.nnodes, t.pl[122]?, t.pl[255]?)) =
    some (256, 256, some (.leaf 4 122), some (.leaf 0 255)) := by decide +kernel

/-- V-L5: at the tail, not ordered. -/
theorem test_plapp : after (exec (.plapp 97 5) (listed [.leaf 2 98] 1))
    (fun t => (keys t, t.nnodes)) = some ([(2, 98), (5, 97)], 2) := by decide +kernel

/-- V-L8: the 257th leaf. -/
theorem test_plapp_full : after (exec (.plapp 0 1) (listed fullList 256))
    (fun t => (t.fault, t.rsp)) = some (some .listFull, [⟨.fault .listFull, 0x22000001⟩]) := by
  decide +kernel

/-- V-L4: after the entry of equal key. -/
theorem test_plins : after (exec (.plins 7 1) (listed [.node 1 7 (.leaf 0 7) (.leaf 1 8), .leaf 2 3] 3))
    (fun t => t.pl) = some [.node 1 7 (.leaf 0 7) (.leaf 1 8), .leaf 1 7, .leaf 2 3] := by decide +kernel

/-- V-L2. -/
theorem test_sort : after (exec .sort
    (listed [.leaf 5 97, .leaf 2 98, .leaf 1 99, .leaf 1 100, .leaf 2 114] 5)) keys =
    some [(1, 99), (1, 100), (2, 98), (2, 114), (5, 97)] := by decide +kernel

/-- V-L6: equal keys come out reversed. -/
theorem test_sort_equal_keys : after (exec .sort
    (listed [.node 2 97 (.leaf 1 97) (.leaf 1 97), .leaf 2 97] 4)) (fun t => t.pl) =
    some [.leaf 2 97, .node 2 97 (.leaf 1 97) (.leaf 1 97)] := by decide +kernel

/-- V-L4: PLLEN. -/
theorem test_pllen : after (exec .pllen (listed [.leaf 1 7, .leaf 1 7, .leaf 2 3, .leaf 2 5, .leaf 2 5] 5))
    (fun t => t.rsp) = some [⟨.ok, 0x00050005⟩] := by decide +kernel

/-- V-L3: weight of entry 4. -/
theorem test_plrdw : after (exec (.plrdw 4)
    (listed [.leaf 1 99, .leaf 1 100, .leaf 2 98, .leaf 2 114, .leaf 5 97] 5)) (fun t => t.rsp) =
    some [⟨.ok, 5⟩] := by decide +kernel

/-- V-L9: PLRDW 256 on the full list. -/
theorem test_plrdw_beyond : after (exec (.plrdw 256) (listed fullList 256)) (fun t => t.rsp) =
    some [⟨.fault .index, 0x26000100⟩] := by decide +kernel

/-- V-T1: a Node of rep 97. -/
theorem test_plrdk : after (exec (.plrdk 1)
    (listed [.leaf 1 99, .node 2 97 (.leaf 1 97) (.leaf 1 98)] 4)) (fun t => t.rsp) =
    some [⟨.ok, 0x161⟩] := by decide +kernel

/-- V-L3: PLLT 0, 1 at equal weights. -/
theorem test_pllt : after (exec (.pllt 0 1) (listed [.leaf 1 99, .leaf 1 100] 2)) (fun t => t.rsp) =
    some [⟨.ok, 1⟩] := by decide +kernel

/-- V-L10: j beyond the list. -/
theorem test_pllt_beyond : after (exec (.pllt 0 1) (listed [.leaf 7 65] 1)) (fun t => t.rsp) =
    some [⟨.fault .index, 0x28001000⟩] := by decide +kernel

/-! ## Tree builder -/

/-- V-T1. -/
theorem test_co1 : after (exec .co1 (listed [.leaf 1 97, .leaf 1 98, .leaf 1 99] 3))
    (fun t => (t.pl, t.nnodes, t.tree)) =
    some ([.leaf 1 99, .node 2 97 (.leaf 1 97) (.leaf 1 98)], 4, none) := by decide +kernel

/-- V-T9: the two front entries, not the two least. -/
theorem test_co1_front : after (exec .co1 (listed [.leaf 5 122, .leaf 1 97, .leaf 2 98] 3)) keys =
    some [(2, 98), (6, 97)] := by decide +kernel

/-- V-T4: one entry, no merge, TREE latched. -/
theorem test_coall : after (exec .coall (listed [treeABC] 5)) (fun t => (t.tree, t.nnodes, t.pl)) =
    some (some treeABC, 5, [treeABC]) := by decide +kernel

/-- V-T6: the empty list gives no tree. -/
theorem test_coall_empty : after (exec .coall ((listed [] 0).setTree (some treeABC)))
    (fun t => (t.tree, t.nnodes)) = some (none, 0) := by decide +kernel

/-- V-T7. -/
theorem test_build : after (exec .build (counted [(97, 3), (65, 3), (56, 1)]))
    (fun t => (t.tree, t.pl, t.nnodes)) = some (some treeP5, [treeP5], 5) := by decide +kernel

/-- V-T10. -/
theorem test_build_overflow : after (exec .build (counted [(97, 0xFFFFFFFF), (98, 1)]))
    (fun t => (t.rsp, t.tree)) = some ([⟨.fault .weightOverflow, 0x32000000⟩], none) := by
  decide +kernel

/-! ## Code table -/

/-- V-K1. -/
theorem test_ctbld : after (exec .ctbld (State.reset.setTree (some treeP5)))
    (fun t => [(97 : Symbol), 65, 56, 0].map fun a => readSym t.ct a) =
    some [[false], [true, true], [true, false], []] := by decide +kernel

/-- P6: the later leaf of a duplicated symbol wins. -/
theorem test_ctbld_duplicate : after (exec .ctbld (State.reset.setTree
    (some (.node 4 97 (.leaf 2 97) (.node 2 97 (.leaf 1 97) (.leaf 1 98))))))
    (fun t => [(97 : Symbol), 98].map fun a => readSym t.ct a) =
    some [[true, false], [true, true]] := by decide +kernel

/-- V-K2. -/
theorem test_ctlen : after (exec (.ctlen 99) (coded [(99, [true, true, true, false])]))
    (fun t => t.rsp) = some [⟨.ok, 4⟩] := by decide +kernel

/-- V-K2: 'c' = "1110". -/
theorem test_ctrd : after (exec (.ctrd 99 0) (coded [(99, [true, true, true, false])]))
    (fun t => t.rsp) = some [⟨.ok, 0xE0000000⟩] := by decide +kernel

/-- R163: beyond the length the bits are 0; element 32 is the first of chunk 1. -/
theorem test_ctrd_chunk : after (exec (.ctrd 0 1) (coded [(0, List.replicate 33 true)]))
    (fun t => t.rsp) = some [⟨.ok, 0x80000000⟩] := by decide +kernel

/-! ## Bit packer -/

/-- P5, command 28: the eighth bit arrives. -/
theorem test_enc : after (exec (.enc 65) ((coded [(65, [true, true])]).setPending 7 7))
    (fun t => (t.out, t.nb, t.acc)) = some ([0x0F], 1, 1) := by decide +kernel

/-- V-B11: an element above 255 appends nothing. -/
theorem test_enc_above_255 : after (exec (.enc 0x161) (coded [(0x61, [true])]))
    (fun t => (t.out, t.nb, t.rsp)) = some ([], 0, [⟨.ok, 0⟩]) := by decide +kernel

/-- S-4: 0xFF leaves during BITS. -/
theorem test_bits : after (exec (.bits 9 0x1FF) State.reset) (fun t => (t.out, t.nb, t.acc)) =
    some ([0xFF], 1, 1) := by decide +kernel

/-- P4: BITS 3, 0xFFFD appends "101". -/
theorem test_bits_ignores_above : after (exec (.bits 3 0xFFFD) State.reset) State.pending =
    some [true, false, true] := by decide +kernel

/-- P5, command 31. -/
theorem test_flush : after (exec .flush (State.reset.setPending 6 3))
    (fun t => (t.out, t.nb, t.acc)) = some ([0xC0], 0, 0) := by decide +kernel

/-- P4, command 7: nothing pending, nothing emitted. -/
theorem test_flush_empty : after (exec .flush State.reset) (fun t => t.out) = some [] := by
  decide +kernel

theorem test_bpclr : after (exec .bpclr (State.reset.setPending 5 3))
    (fun t => (t.out, t.nb, t.acc)) = some ([], 0, 0) := by decide +kernel

/-! ## Faults and the step -/

/-- V-C7, V-C11: while halted a legal and an illegal word are refused. -/
theorem test_halted : after (step { State.reset with
    fault := some .index, input := [.command 0x28001000] }) (fun t => (t.fault, t.rsp)) =
    some (some .index, [⟨.halted, 0x28001000⟩]) := by decide +kernel

/-- V-C3. -/
theorem test_illegal : after (step (State.reset.setInput [.command 0x51110000]))
    (fun t => (t.fault, t.rsp)) = some (some .illegalCommand, [⟨.fault .illegalCommand, 0x51110000⟩]) := by
  decide +kernel

/-- V-F4. -/
theorem test_count_overflow : after (exec (.cnt 97) (counted [(97, 0xFFFFFFFF)]))
    (fun t => (t.rsp, readSym t.freq 97)) = some ([⟨.fault .countOverflow, 0x11000061⟩], 0xFFFFFFFF) := by
  decide +kernel

/-- S-9, and R206. -/
theorem test_underflow : after (exec .co1 State.reset) (fun t => (t.faultReg, t.faultO, t.rspPort)) =
    some (1, true, some (1, 0x30000000)) := by decide +kernel

/-- V-T14: ArenaFull with LEN = 1. -/
theorem test_arena_full : after (exec (.plapp 0 1) (listed [.leaf 1 0] 511)) (fun t => t.rsp) =
    some [⟨.fault .arenaFull, 0x22000001⟩] := by decide +kernel

/-- The word is the very next command. -/
theorem test_withFetchWord : after (step (State.reset.withFetchWord 32 0x22610001))
    (fun t => (t.pl, t.input)) = some ([.leaf 1 97], []) := by decide +kernel

theorem test_reset_pin : after (step { listed [.leaf 1 97] 1 with input := [.resetPin] })
    (fun t => (t.pl, t.nnodes, t.rsp)) = some ([], 0, []) := by decide +kernel

theorem test_idle : after (step (listed [.leaf 1 97] 1)) (fun t => t.pl) = some [.leaf 1 97] := by
  decide +kernel

/-! ## The machine of another configuration -/

/-- `W` = 1: the count 1 is full (R201), and 1 + 1 is `2^W` (R202). -/
theorem test_small_weights : (after (execIn smallBuild (.cnt 97) (counted [(97, 1)])) State.fault) =
      some (some .countOverflow) ∧
    (after (execIn smallBuild .co1 (listed [.leaf 1 97, .leaf 1 98] 2)) State.fault) =
      some (some .weightOverflow) := by decide +kernel

/-- `BITS_MAX` = 1: the word of BITS 2 is illegal, that of BITS 1 is not (R64 (c)). -/
theorem test_small_bits :
    (after (stepIn smallBuild (State.reset.setInput [.command 0x51020000])) State.fault) =
      some (some .illegalCommand) ∧
    (after (stepIn smallBuild (State.reset.setInput [.command 0x51010001])) State.pending) =
      some [true] := by decide +kernel

/-- `LIST_CAP` = 511: the 257th leaf fits (R116). -/
theorem test_large_list : after (execIn smallBuild (.plapp 0 1) (listed fullList 256))
    (fun t => (t.fault, t.pl.length)) = some (none, 257) := by decide +kernel

/-- BUILD with `ZERO_LEAVES` = 1 and every count 0: 511 nodes, and the tree latched (R146). -/
theorem test_build_zero_leaves : after (execIn zeroLeaves .build State.reset)
    (fun t => (t.nnodes, t.pl.length, t.tree.isSome, t.fault)) = some (511, 1, true, none) := by
  decide +kernel

/-! ## The assembler (R78, R79, R80) -/

theorem test_assemble_pllt : assembleLine ['P', 'L', 'L', 'T', ' ', '0', ',', ' ', '1'] =
    some [.pllt 0 1] := by decide +kernel

theorem test_assemble_char : assembleLine
    ['C', 'N', 'T', ' ', '\'', 'a', '\'', ' ', ';', ' ', 'x'] = some [.cnt 97] := by decide +kernel

theorem test_assemble_hex : assembleLine ['B', 'I', 'T', 'S', ' ', '9', ',', '0', 'x', '1', 'F', 'F'] =
    some [.bits 9 0x1FF] := by decide +kernel

theorem test_assemble_refuses_wide : assembleLine ['F', 'R', 'D', ' ', '2', '5', '6'] = none := by
  decide +kernel

/-- S-4: PACK "111111111". -/
theorem test_assemble_pack : assembleLine
    (['P', 'A', 'C', 'K', ' ', '"'] ++ List.replicate 17 '1' ++ ['"']) =
    some [.bpclr, .bits 16 0xFFFF, .bits 1 1, .flush] := by decide +kernel

/-! ## Witnesses: states and operands that meet the hypotheses of each statement

A statement whose only hypothesis is `s.fault = none` is met by `State.reset` and by every state built
here without `setFault` (`witness_running`). -/

theorem witness_running : State.reset.fault = none ∧ (listed fullList 256).fault = none ∧
    (counted [(97, 0xFFFFFFFF)]).fault = none := ⟨rfl, rfl, rfl⟩

/-- DecodeOfEncode, at the ends of the only checked field. -/
theorem witness_DecodeOfEncode : (Instr.bits 0 0xFFFF).wf = true ∧ (Instr.bits 16 0).wf = true ∧
    (Instr.cnt 0xFFFFFF).wf = true := by decide

/-- EncodeOfDecode, StepRunsDecoded. -/
theorem witness_EncodeOfDecode : decode 0x5110FFFF = some (.bits 16 0xFFFF) ∧
    decode 0x4200077F = some (.ctrd 127 7) := by decide

/-- IllegalWords: a word for each way to be illegal, and legal neighbours. -/
theorem witness_IllegalWords :
    [0x04000000, 0x01000001, 0x12000100, 0x27001000, 0x42000800, 0x51200000, 0x51110000].map decode =
      List.replicate 7 none ∧
    ([0x03000000, 0x120000FF, 0x27000FFF, 0x420007FF, 0x5110FFFF].map decode).all Option.isSome := by
  decide

/-- IllegalWordFaults. -/
theorem witness_IllegalWordFaults : State.reset.fault = none ∧ decode 0x51110000 = none := by decide

/-- HaltedRefuses, FaultKeptUntilAcknowledged: a halted state with words inside and outside the list. -/
theorem witness_HaltedRefuses : (State.reset.setFault (some .index)).fault ≠ none ∧
    (0x00000001 : Word) ∉ ([0x00000000, 0x01000000, 0x02000000, 0x03000000] : List Word) := by decide

/-- A state with the invariant, with a list, a latched tree, a codeword and pending bits: OneResponsePerCommand,
TreeInvariants (either clause), StepKeepsInv. -/
def busyState : State :=
  { coded [(97, List.replicate 255 true)] with
    pl := [.leaf 1 97, treeABC], nnodes := 6, tree := some treeABC, acc := 127, nb := 7 }

theorem witness_Inv : busyState.Inv where
  listLength := by decide
  listTrees := by decide
  listWeights := by decide
  listNodes := by decide
  nodeBudget := by decide
  latchedTree := by decide
  latchedWeight := by decide
  countBits := by decide +kernel
  codeLength := by decide +kernel
  pendingBits := by decide

theorem witness_TreeInvariants : treeABC ∈ busyState.pl ∧ busyState.tree = some treeABC := by decide

theorem witness_StepKeepsInv :
    (after (step (busyState.setInput [.command 0x50000061])) fun t => t.out.length) = some 32 := by
  decide +kernel

/-- FaultsArePrecise, FaultCauses, AcknowledgeRestores: a command for every kind of fault. -/
theorem witness_faults :
    [after (exec .co1 (listed [.leaf 1 97] 1)) State.fault,
      after (exec (.pllt 0 1) (listed [.leaf 1 97] 1)) State.fault,
      after (exec (.bits 17 0) State.reset) State.fault,
      after (exec (.cnt 255) (counted [(255, 0xFFFFFFFF)])) State.fault,
      after (exec .co1 (listed [.leaf 0xFFFFFFFF 97, .leaf 1 98] 510)) State.fault,
      after (exec (.plins 0 0) (listed fullList 511)) State.fault,
      after (exec .coall (listed [.leaf 1 97, .leaf 1 98] 511)) State.fault] =
    [some (some .underflow), some (some .index), some (some .illegalCommand),
      some (some .countOverflow), some (some .weightOverflow), some (some .listFull),
      some (some .arenaFull)] := by decide +kernel

/-- FaultsArePrecise, FaultKeptUntilAcknowledged: the same as steps on words. -/
theorem witness_fault_steps :
    (after (step ((listed [.leaf 1 97] 1).setInput [.command 0x30000000])) State.fault) =
      some (some .underflow) ∧
    (after (step (((listed [.leaf 1 97] 1).setFault (some .index)).setInput [.command 0x25000000]))
      State.fault) = some (some .index) ∧
    (after (step (((listed [.leaf 1 97] 1).setFault (some .index)).setInput [.command 0x03000000]))
      State.fault) = some none := by decide +kernel

theorem witness_FaultCauses : FaultCause .co1 (listed [.leaf 1 97] 1) .underflow ∧
    FaultCause (.plrdw 1) (listed [.leaf 1 97] 1) .index ∧
    FaultCause (.bits 17 0) State.reset .illegalCommand ∧
    FaultCause (.plapp 0 0) (listed fullList 511) .listFull ∧
    FaultCause .co1 (listed [.leaf 1 97, .leaf 1 98] 511) .arenaFull :=
  ⟨⟨rfl, by decide⟩, .inl ⟨1, .inl rfl, by decide⟩, rfl, ⟨⟨0, 0, .inl rfl⟩, by decide +kernel⟩,
    .inr (.inl ⟨rfl, by decide, by decide⟩)⟩

/-- TableWriters, ListAndTreeWriters, PackerWriters: every clause has a command that does change the piece. -/
theorem witness_writers :
    (after (exec (.cnt 97) State.reset) fun t => readSym t.freq 97) ≠ some (readSym State.reset.freq 97) ∧
    (after (exec .ctbld (State.reset.setTree (some treeABC))) fun t => readSym t.ct 97) ≠
      some (readSym State.reset.ct 97) ∧
    (after (exec (.plins 97 1) State.reset) fun t => (t.pl.length, t.nnodes)) = some (1, 1) ∧
    (after (exec .coall (listed [treeABC] 5)) State.tree) = some (some treeABC) ∧
    (after (exec (.bits 9 0) State.reset) fun t => (t.out, t.nb)) = some ([0], 1) := by decide +kernel

/-- ReadsHaveNoSideEffects: each read ends with OK. -/
theorem witness_reads : [Instr.nop, .stat, .pllen, .frd 97, .plrdw 0, .plrdk 0, .pllt 0 0, .ctlen 97,
    .ctrd 97 7].map (fun i => after (exec i (listed [.leaf 5 97] 1)) fun t => t.rsp.map Response.data) =
    [some [0], some [0], some [0x00010001], some [0], some [5], some [97], some [0], some [0],
      some [0]] := by decide +kernel

/-- CountElement: the elements 255 and 256, the counts `2^32 − 2` and `2^32 − 1`. -/
theorem witness_CountElement :
    (0xFF : InputElem).toNat = (0xFF : Symbol).toNat ∧ 255 < (0x100 : InputElem).toNat ∧
    (readSym (counted [(255, 0xFFFFFFFE)]).freq 255).toNat < 2 ^ 32 - 1 ∧
    (readSym (counted [(255, 0xFFFFFFFF)]).freq 255).toNat = 2 ^ 32 - 1 := by decide +kernel

/-- CountsOfAText, HuffPseudo: a text with an element above 255. -/
theorem witness_text : ([0x61, 0x161, 0xFF, 0x61] : List InputElem).length < 2 ^ 32 ∧
    (after (execAll (expand (.huff [0x61, 0x161, 0xFF, 0x61])) State.reset) fun t =>
      (t.fault, t.out)) = some (none, [0xA0]) := by decide +kernel

/-- TreeOrder: the two clauses of the order, and two trees of one key. -/
theorem witness_TreeOrder : treeLt (.leaf 1 9) (.leaf 2 0) = true ∧
    treeLt (.leaf 2 0) (.leaf 2 9) = true ∧
    HuffTree.key (.leaf 2 97) = HuffTree.key (.node 2 97 (.leaf 1 97) (.leaf 1 98)) := by decide

/-- AppendLeaf, InsertLeaf: a full list, a full arena, and room for the last of both. -/
theorem witness_leaf : (listed fullList 511).pl.length = 256 ∧
    ((listed [.leaf 1 97] 511).pl.length ≠ 256 ∧ (listed [.leaf 1 97] 511).nnodes.toNat = 511) ∧
    (listed (fullList.take 255) 510).pl.length ≠ 256 ∧
    (listed (fullList.take 255) 510).nnodes.toNat ≠ 511 := by decide +kernel

/-- SortReversesEqualKeys: two entries of one key. -/
theorem witness_SortReverses : ((listed [.leaf 2 97, .leaf 1 3, .node 2 97 (.leaf 1 97) (.leaf 1 98)] 5).pl.filter
    fun x => x.key == ((2, 97) : Weight × Symbol)).length = 2 := by decide +kernel

/-- FaultOutput: a latched fault, and a last response. -/
theorem witness_FaultOutput : (State.reset.setFault (some .arenaFull)).fault = some .arenaFull ∧
    (State.reset.record ⟨.halted, 5⟩).rsp = [] ++ [⟨.halted, 5⟩] ∧ State.reset.rsp = [] := by decide

/-- ConfiguredBaseAndBuild: no leaf, and 256 leaves that reach `2^W` or do not. -/
theorem witness_ConfiguredBaseAndBuild : baseList Config.hardware State.reset.freq = [] ∧
    (baseList smallBuild (counted [(97, 1), (98, 1)]).freq).length = 256 ∧
    2 ^ smallBuild.w ≤ ((baseList smallBuild (counted [(97, 1), (98, 1)]).freq).map
      fun t => t.weight.toNat).sum ∧
    ((baseList smallBuild (counted [(97, 1)]).freq).map fun t => t.weight.toNat).sum <
      2 ^ smallBuild.w := by decide +kernel

/-- ConfiguredMachine: a fault at a limit that is not the hardware's. -/
theorem witness_ConfiguredMachine : FaultCauseIn smallBuild (.bits 2 0) State.reset .illegalCommand ∧
    ¬ FaultCause (.bits 2 0) State.reset .illegalCommand := by
  constructor
  · exact rfl
  · intro h
    cases (h : (Instr.bits 2 0).wf = false)

/-- SortOfDistinctKeys: two orders of the same entries. -/
theorem witness_SortOfDistinct :
    ((listed [.leaf 2 97, .leaf 1 3] 2).pl.map HuffTree.key).Nodup ∧
    (listed [.leaf 2 97, .leaf 1 3] 2).pl.Perm (listed [.leaf 1 3, .leaf 2 97] 2).pl :=
  ⟨by decide, List.Perm.swap _ _ _⟩

/-- AscendingKept: an ascending list with equal keys. -/
theorem witness_Ascending : Ascending (listed [.leaf 1 3, .leaf 2 97, .leaf 2 97] 3).pl := by
  intro k h
  obtain rfl | rfl : k = 0 ∨ k = 1 := by
    simp [listed] at h
    omega
  · rfl
  · rfl

/-- ListInfo: the full list. -/
theorem witness_ListInfo : (listed fullList 256).fault = none ∧ (listed fullList 256).pl.length ≤ 256 := by
  decide +kernel

/-- ReadEntry, CompareEntries: the last entry, and the first index beyond it. -/
theorem witness_index : (1 : ListIndex).toNat < (listed [.leaf 1 97, .leaf 1 98] 2).pl.length ∧
    (listed [.leaf 1 97, .leaf 1 98] 2).pl.length ≤ (2 : ListIndex).toNat := by decide

/-- CoalesceOnce: each clause, with the sums `2^32 − 1` and `2^32`. -/
theorem witness_CoalesceOnce : (listed [.leaf 1 97] 1).pl.length < 2 ∧
    (2 ≤ (listed [.leaf 1 97, .leaf 1 98] 511).pl.length ∧
      (listed [.leaf 1 97, .leaf 1 98] 511).nnodes.toNat = 511) ∧
    (listed [.leaf 1 97, .leaf 1 98] 510).nnodes.toNat ≠ 511 ∧
    2 ^ 32 ≤ (HuffTree.leaf 0xFFFFFFFF 97).weight.toNat + (HuffTree.leaf 1 98).weight.toNat ∧
    (HuffTree.leaf 0xFFFFFFFE 97).weight.toNat + (HuffTree.leaf 1 98).weight.toNat < 2 ^ 32 := by decide

/-- CoalesceAll: 512 and 511 nodes wanted, the sums `2^32` and `2^32 − 1`, one entry, none. -/
theorem witness_CoalesceAll :
    511 < (listed [.leaf 1 97, .leaf 1 98] 511).nnodes.toNat + (2 - 1) ∧
    (listed [.leaf 1 97, .leaf 1 98] 510).nnodes.toNat + (2 - 1) ≤ 511 ∧
    2 ^ 32 ≤ (([.leaf 0xFFFFFFFF 97, .leaf 1 98] : List HuffTree).map fun t => t.weight.toNat).sum ∧
    (([.leaf 0xFFFFFFFE 97, .leaf 1 98] : List HuffTree).map fun t => t.weight.toNat).sum < 2 ^ 32 ∧
    (listed [.leaf 0xFFFFFFFF 97] 511).pl.length < 2 ∧ (listed [] 0).pl.length < 2 := by decide

/-- CoalescedTree: the leaves 97 and 98, each with its weight. -/
theorem witness_CoalescedTree : (after (exec .coall (listed [.leaf 1 97, .leaf 1 98] 2)) fun t =>
    (t.fault, t.tree)) = some (none, some (.node 2 97 (.leaf 1 97) (.leaf 1 98))) := by decide +kernel

/-- BuildIsBaseSortCoall: a run without a fault and one with WeightOverflow. -/
theorem witness_BuildIsBaseSortCoall :
    (after (execAll [.base, .sort, .coall] (counted [(97, 0xFFFFFFFF)])) State.fault) = some none ∧
    (after (execAll [.base, .sort, .coall] (counted [(97, 0xFFFFFFFF), (98, 1)])) State.fault) =
      some (some .weightOverflow) := by decide +kernel

/-- BuildTree: counts whose sum is `2^32 − 1`. -/
theorem witness_BuildTree : (allSymbols.map fun a =>
    (readSym (counted [(97, 0xFFFFFFFE), (98, 1)]).freq a).toNat).sum < 2 ^ 32 := by decide +kernel

/-- BuildCodeTable, PrefixFree, KraftEquality. -/
theorem witness_code : (State.reset.setTree (some treeABC)).tree = some treeABC ∧
    treeABC.symbols.Nodup ∧ (97 : Symbol) ∈ treeABC.symbols ∧ (98 : Symbol) ∈ treeABC.symbols ∧
    State.reset.tree = none := by decide

/-- CountedSymbolsHaveCodes. -/
theorem witness_CountedSymbols :
    (after (execAll [.build, .ctbld] (counted [(97, 1), (98, 1)])) fun t =>
      (t.fault, readSym t.ct 97, readSym t.ct 98, readSym t.ct 99)) =
      some (none, [false], [true], []) ∧
    readSym (counted [(97, 1), (98, 1)]).freq 97 ≠ 0 := by decide +kernel

/-- ReadCodeword, PhysicalEntry, EncodeElement: a codeword of 255 bits, seven bits pending. -/
theorem witness_codeword : (readSym busyState.ct 97).length = 255 ∧ busyState.fault = none ∧
    busyState.acc.toNat < 2 ^ busyState.nb.toNat ∧ ∀ a, (readSym busyState.ct a).length ≤ 255 :=
  ⟨by decide +kernel, rfl, by decide, witness_Inv.codeLength⟩

/-- AppendRawBits: n = 0 and n = 16. -/
theorem witness_AppendRawBits :
    ((16 : BitVec 5).toNat ≤ 16 ∧ (List.replicate 16 true).length = (16 : BitVec 5).toNat ∧
      ∀ k < 16, (List.replicate 16 true)[k]? = some ((0xFFFF : BitVec 16).getLsbD (16 - 1 - k))) ∧
    (0 : BitVec 5).toNat ≤ 16 ∧ ([] : BitString).length = (0 : BitVec 5).toNat := by decide

/-- FlushAndDrop: no pending bit, and seven. -/
theorem witness_FlushAndDrop : State.reset.nb = 0 ∧ busyState.nb = 7 := by decide

/-- A run is free of faults when each command leaves none (for PackerEmitsPack). -/
theorem faultFree_cons {i : Instr} {is : List Instr} {s t : State} (hs : s.fault = none)
    (h : exec i s = .next t) (ht : FaultFree is t) : FaultFree (i :: is) s := by
  refine ⟨hs, fun u hu => ?_⟩
  rw [h] at hu
  cases hu
  exact ht

/-- PackerEmitsPack: ENC, CNT and BITS mixed, then FLUSH, from reset. -/
theorem witness_PackerEmitsPack : State.reset.nb = 0 ∧ State.reset.acc = 0 ∧
    FaultFree ([.enc 97, .cnt 97, .bits 9 0x1FF] ++ [.flush]) State.reset := by
  refine ⟨rfl, rfl, faultFree_cons rfl rfl (faultFree_cons rfl rfl (faultFree_cons rfl rfl
    (faultFree_cons rfl rfl ?_)))⟩
  exact (rfl : State.reset.fault = none)

/-- PackPseudo. -/
theorem witness_PackPseudo : (after (execAll (expand (.pack (List.replicate 17 true))) State.reset)
    fun t => t.out) = some [0xFF, 0xFF, 0x80] := by decide +kernel

end Sys2Proof.Tests
end

namespace Sys2Proof.Machine

/-! ## The machine of a configuration (O59)

The step of the hardware's configuration is the host's step, and in every configuration the fault
latched by a command is the one whose cause holds (60_exceptions.md R195, R207). -/

theorem acceptWordIn_hardware (w : Word) (s : State) :
    acceptWordIn Config.hardware w s = acceptWord w s := by
  unfold acceptWordIn acceptWord decode
  cases decodeIn Config.hardware w with
  | some i => exact execIn_hardware i s
  | none => rfl

theorem takeEventIn_hardware (e : HostEvent) (s : State) :
    takeEventIn Config.hardware e s = takeEvent e s := by
  cases e with
  | command w => exact acceptWordIn_hardware w s
  | resetPin => rfl

theorem stepIn_hardware (s : State) : stepIn Config.hardware s = step s := by
  unfold stepIn step
  cases s.input with
  | nil => rfl
  | cons e rest => exact takeEventIn_hardware e (s.setInput rest)

/-- In every configuration a command ends in a next state (R32). -/
theorem execIn_total (cfg : Config) (i : Instr) (s : State) : ∃ t, execIn cfg i s = .next t := by
  cases i <;> exact ⟨_, rfl⟩

/-- The fault a running command latches is exactly the one that has its cause (R195, R207). -/
theorem execIn_fault_eq_some_iff {cfg : Config} {i : Instr} {s t : State} (hs : s.fault = none)
    (h : execIn cfg i s = .next t) (k : FaultKind) :
    t.fault = some k ↔ FaultCauseIn cfg i s k := by
  obtain ⟨k₀, hcause, hunique, rfl⟩ | ⟨hnone, hfault, -, -⟩ := execIn_running_cases cfg i s t hs h
  · have latched : (raise k₀ (encode i) s).fault = some k₀ := by simp [hs]
    rw [latched, Option.some.injEq]
    exact ⟨fun e => e ▸ hcause, fun hk => (hunique k hk).symm⟩
  · simp [hfault, hnone k]

/-- Settles O59: the host's machine is the configured one at `Config.hardware`, and in any
configuration the inversion of a running command names its only fault. -/
theorem configuredMachine : Obligations.ConfiguredMachine := by
  refine ⟨⟨fun _ => rfl, fun i s => (execIn_hardware i s).symm, fun s => (stepIn_hardware s).symm⟩,
    fun cfg i s hs => ?_⟩
  obtain ⟨t, ht⟩ := execIn_total cfg i s
  exact ⟨t, ht, execIn_fault_eq_some_iff hs ht⟩

end Sys2Proof.Machine

namespace Sys2Proof.Machine

/-! ## What one command can do to the state

`Effect` lists the ways a command can end, by the pieces of state it writes; `exec_effect` is the
inversion of `exec` that the statements about writers and about the invariant share. -/

/-- `Effect s i t`: the command `i` can leave `t` when it starts in `s`. Either all data is kept and the
command only settles FAULT and responds (a refusal, a fault, a read, NOP, STAT, ERRACK), or the command
ends normally after the writes of its rule. -/
inductive Effect (s : State) : Instr → State → Prop
  | kept (i : Instr) (f : Option FaultKind) (r : Response) : Effect s i ((s.setFault f).record r)
  | reset : Effect s .rst (respond 0 (resetState s))
  | countsCleared : Effect s .fclr (respond 0 (s.setFreq (clearedTable 0)))
  | counted (v : InputElem) (f : FreqTable) : Effect s (.cnt v) (respond 0 (s.setFreq f))
  | listCleared : Effect s .plclr (respond 0 (((s.setPl []).setTree none).setNNodes 0))
  | listLoaded : Effect s .base (respond 0 (((s.setPl (baseList Config.hardware s.freq)).setTree
      none).setNNodes (BitVec.ofNat 9 (baseList Config.hardware s.freq).length)))
  | leafAdded (i : Instr) (a : Symbol) (w : BitVec 16) (x : Weight) (l : List HuffTree)
      (command : i = .plapp a w ∨ i = .plins a w) (entries : l.Perm (.leaf x a :: s.pl))
      (room : s.pl.length ≠ 256) (budget : s.nnodes.toNat ≠ 511) :
      Effect s i (respond 0 ((s.setPl l).setNNodes (s.nnodes + 1)))
  | sorted : Effect s .sort (respond 0 (s.setPl (initialSort s.pl)))
  | merged (a b : HuffTree) (rest : List HuffTree) (front : s.pl = a :: b :: rest)
      (budget : s.nnodes.toNat ≠ 511) (exact : a.weight.toNat + b.weight.toNat < 2 ^ 32) :
      Effect s .co1 (respond 0
        ((s.setPl (insertTree rest (mergeTrees a b))).setNNodes (s.nnodes + 1)))
  | coalesced (budget : s.nnodes.toNat + (s.pl.length - 1) ≤ 511)
      (exact : s.pl.length < 2 ∨ totalWeight s.pl < 2 ^ 32) :
      Effect s .coall (respond 0 (((s.setPl (coalesceAll s.pl)).setNNodes
        (BitVec.ofNat 9 (s.nnodes.toNat + (s.pl.length - 1)))).setTree (coalesceAll s.pl).head?))
  | built (l : List HuffTree) (base : l = baseList Config.hardware s.freq)
      (exact : l.length < 2 ∨ totalWeight l < 2 ^ 32) :
      Effect s .build (respond 0 (((s.setPl (coalesceAll (initialSort l))).setNNodes
        (BitVec.ofNat 9 (l.length + (l.length - 1)))).setTree (coalesceAll (initialSort l)).head?))
  | codesBuilt : Effect s .ctbld (respond 0 (s.setCt (codeTableOf s.tree)))
  | bitsAppended (i : Instr) (b : BitString)
      (command : (∃ v, i = .enc v) ∨ ∃ n pat, i = .bits n pat) :
      Effect s i (respond 0 (appendBits s b))
  | flushed : Effect s .flush (respond 0 (flushPending s))
  | bitsDropped : Effect s .bpclr (respond 0 (s.setPending 0 0))

section
variable {i : Instr} {s t : State}

theorem effect_respond (d : Word) : Effect s i (respond d s) := .kept i s.fault ⟨.ok, d⟩

theorem effect_raise (k : FaultKind) (w : Word) : Effect s i (raise k w s) :=
  .kept i (s.fault.or (some k)) ⟨.fault k, w⟩

theorem effect_acknowledge : Effect s i (respond 0 (acknowledge s)) := .kept i none ⟨.ok, 0⟩

/-- A command that can be refused has an effect when its own rule has one (R199). -/
theorem effect_of_running {u : State} (h : exec i s = .next t) (hi : i.isControl = false)
    (hrun : s.fault = none → exec i s = .next u) (hu : Effect s i u) : Effect s i t := by
  by_cases hs : s.fault = none
  · cases (hrun hs).symm.trans h
    exact hu
  · cases (exec_halted hs hi).symm.trans h
    exact .kept i s.fault ⟨.halted, encode i⟩

end

section
variable (s : State)

theorem countElement_effect (v : InputElem) :
    Effect s (.cnt v) (countElement Config.hardware v s) := by
  rcases countElement_cases Config.hardware v s with ⟨-, he⟩ | ⟨a, -, ⟨-, he⟩ | ⟨-, he⟩⟩ <;> rw [he]
  · exact effect_respond 0
  · exact effect_raise _ _
  · exact .counted v _

theorem addLeaf_effect {i : Instr} {a : Symbol} {w : BitVec 16} {x : Weight} {l : List HuffTree}
    (hi : i = .plapp a w ∨ i = .plins a w) (hl : l.Perm (.leaf x a :: s.pl)) :
    Effect s i (addLeaf Config.hardware i l s) := by
  rcases addLeaf_cases Config.hardware i l s with ⟨-, he⟩ | ⟨-, -, he⟩ | ⟨hroom, hbudget, he⟩ <;>
    rw [he]
  · exact effect_raise _ _
  · exact effect_raise _ _
  · exact .leafAdded i a w x l hi hl hroom hbudget

theorem readEntry_effect (i : Instr) (k : ListIndex) (d : HuffTree → Word) :
    Effect s i (readEntry i k d s) := by
  rcases readEntry_cases i k d s with ⟨-, he⟩ | ⟨_, he⟩ <;> rw [he]
  · exact effect_raise _ _
  · exact effect_respond _

theorem compareEntries_effect (k j : ListIndex) :
    Effect s (.pllt k j) (compareEntries k j s) := by
  rcases compareEntries_cases k j s with ⟨-, he⟩ | ⟨_, _, he⟩ <;> rw [he]
  · exact effect_raise _ _
  · exact effect_respond _

theorem coalesceStep_effect : Effect s .co1 (coalesceStep Config.hardware s) := by
  rcases coalesceStep_cases Config.hardware s with
    ⟨-, he⟩ | ⟨a, b, rest, hfront, ⟨-, he⟩ | ⟨-, -, he⟩ | ⟨hbudget, hexact, he⟩⟩ <;> rw [he]
  · exact effect_raise _ _
  · exact effect_raise _ _
  · exact effect_raise _ _
  · exact .merged a b rest hfront hbudget hexact

theorem coalesceList_effect : Effect s .coall (coalesceList Config.hardware s) := by
  rcases coalesceList_cases Config.hardware s with
    ⟨-, he⟩ | ⟨-, -, -, he⟩ | ⟨hbudget, hexact, he⟩ <;> rw [he]
  · exact effect_raise _ _
  · exact effect_raise _ _
  · exact .coalesced hbudget hexact

theorem buildTree_effect : Effect s .build (buildTree Config.hardware s) := by
  rcases buildTree_cases Config.hardware s with ⟨-, -, he⟩ | ⟨hexact, he⟩ <;> rw [he]
  · exact effect_raise _ _
  · exact .built _ rfl hexact

theorem appendRaw_effect (n : BitVec 5) (pat : BitVec 16) :
    Effect s (.bits n pat) (appendRaw Config.hardware n pat s) := by
  rcases appendRaw_cases Config.hardware n pat s with ⟨-, he⟩ | ⟨-, he⟩ <;> rw [he]
  · exact effect_raise _ _
  · exact .bitsAppended _ _ (.inr ⟨n, pat, rfl⟩)

end

/-- The inversion of `exec`: whatever the state, a command ends in one of its effects. -/
theorem exec_effect {i : Instr} {s t : State} (h : exec i s = .next t) : Effect s i t := by
  cases i with
  | nop => cases h; exact effect_respond 0
  | rst => cases h; exact .reset
  | stat => cases h; exact effect_respond _
  | errack => cases h; exact effect_acknowledge
  | fclr => exact effect_of_running h rfl exec_fclr .countsCleared
  | cnt v => exact effect_of_running h rfl (exec_cnt · v) (countElement_effect s v)
  | frd a => exact effect_of_running h rfl (exec_frd · a) (effect_respond _)
  | plclr => exact effect_of_running h rfl exec_plclr .listCleared
  | base => exact effect_of_running h rfl exec_base .listLoaded
  | plapp a w =>
    exact effect_of_running h rfl (exec_plapp · a w)
      (addLeaf_effect s (.inl rfl) (List.perm_append_singleton _ _))
  | plins a w =>
    exact effect_of_running h rfl (exec_plins · a w)
      (addLeaf_effect s (.inr rfl) (insertTree_perm _ _))
  | sort => exact effect_of_running h rfl exec_sort .sorted
  | pllen => exact effect_of_running h rfl exec_pllen (effect_respond _)
  | plrdw k => exact effect_of_running h rfl (exec_plrdw · k) (readEntry_effect s _ k _)
  | plrdk k => exact effect_of_running h rfl (exec_plrdk · k) (readEntry_effect s _ k _)
  | pllt k j => exact effect_of_running h rfl (exec_pllt · k j) (compareEntries_effect s k j)
  | co1 => exact effect_of_running h rfl exec_co1 (coalesceStep_effect s)
  | coall => exact effect_of_running h rfl exec_coall (coalesceList_effect s)
  | build => exact effect_of_running h rfl exec_build (buildTree_effect s)
  | ctbld => exact effect_of_running h rfl exec_ctbld .codesBuilt
  | ctlen a => exact effect_of_running h rfl (exec_ctlen · a) (effect_respond _)
  | ctrd a c => exact effect_of_running h rfl (exec_ctrd · a c) (effect_respond _)
  | enc v =>
    exact effect_of_running h rfl (exec_enc · v) (.bitsAppended _ _ (.inl ⟨v, rfl⟩))
  | bits n pat => exact effect_of_running h rfl (exec_bits · n pat) (appendRaw_effect s n pat)
  | flush => exact effect_of_running h rfl exec_flush .flushed
  | bpclr => exact effect_of_running h rfl exec_bpclr .bitsDropped

/-! ## The list, the tree and the node count (R18, R20, R21) -/

/-- The part of the invariant that speaks of PL, TREE and NNODES, on this hardware. -/
structure ForestOk (pl : List HuffTree) (tree : Option HuffTree) (nodes : Nat) : Prop where
  length_le : pl.length ≤ 256
  entries_ok : ∀ t ∈ pl, t.ok = true
  size_eq : totalSize pl = nodes
  nodes_le : nodes ≤ 511
  tree_ok : ∀ t ∈ tree, t.ok = true ∧ t.size ≤ nodes

/-- The invariant on this hardware, where counts and weights fill their words: the list and the tree, the
codewords, the pending bits. -/
theorem inv_iff (s : State) : s.Inv ↔ ForestOk s.pl s.tree s.nnodes.toNat ∧
    (∀ a : Symbol, (readSym s.ct a).length ≤ 255) ∧ s.acc.toNat < 2 ^ s.nb.toNat := by
  constructor
  · intro h
    exact ⟨⟨h.listLength, h.listTrees, h.listNodes, h.nodeBudget, h.latchedTree⟩, h.codeLength,
      h.pendingBits⟩
  · rintro ⟨hforest, hcodes, hpending⟩
    exact
      { listLength := hforest.length_le
        listTrees := hforest.entries_ok
        listWeights := fun t _ => t.weight.isLt
        listNodes := hforest.size_eq
        nodeBudget := hforest.nodes_le
        latchedTree := hforest.tree_ok
        latchedWeight := fun t _ => t.weight.isLt
        countBits := fun a => (readSym s.freq a).isLt
        codeLength := hcodes
        pendingBits := hpending }

theorem forestOk_nil : ForestOk [] none 0 where
  length_le := by simp
  entries_ok := by simp
  size_eq := rfl
  nodes_le := by simp
  tree_ok := by simp

/-- BASE leaves a good list (R114). -/
theorem forestOk_baseList (f : FreqTable) :
    ForestOk (baseList Config.hardware f) none (baseList Config.hardware f).length where
  length_le := length_baseList_le _ f
  entries_ok := baseList_ok _ f
  size_eq := totalSize_baseList _ f
  nodes_le := (length_baseList_le _ f).trans (by decide)
  tree_ok := by simp

section
variable {pl l : List HuffTree} {tree : Option HuffTree} {n : Nat}

/-- The order of the entries does not matter. -/
theorem ForestOk.perm (h : ForestOk pl tree n) (hl : l.Perm pl) : ForestOk l tree n where
  length_le := hl.length_eq ▸ h.length_le
  entries_ok := fun t ht => h.entries_ok t (hl.mem_iff.1 ht)
  size_eq := (totalSize_perm hl).trans h.size_eq
  nodes_le := h.nodes_le
  tree_ok := h.tree_ok

/-- A leaf more, when the list has room and a node is left (R116, R117). -/
theorem ForestOk.cons_leaf (h : ForestOk pl tree n) (hroom : pl.length ≠ 256) (hbudget : n ≠ 511)
    (x : Weight) (a : Symbol) : ForestOk (.leaf x a :: pl) tree (n + 1) where
  length_le := by
    have := h.length_le
    rw [List.length_cons]
    omega
  entries_ok := List.forall_mem_cons.2 ⟨rfl, h.entries_ok⟩
  size_eq := by rw [totalSize_cons, h.size_eq, Nat.add_comm]; rfl
  nodes_le := by
    have := h.nodes_le
    omega
  tree_ok := fun t ht => ⟨(h.tree_ok t ht).1, Nat.le_succ_of_le (h.tree_ok t ht).2⟩

/-- One merge of the two front entries: a node more, an entry less (R142, R143). -/
theorem ForestOk.merge {a b : HuffTree} {rest : List HuffTree} (h : ForestOk (a :: b :: rest) tree n)
    (hbudget : n ≠ 511) (hexact : a.weight.toNat + b.weight.toNat < 2 ^ 32) :
    ForestOk (mergeTrees a b :: rest) tree (n + 1) where
  length_le := by
    have := h.length_le
    simp only [List.length_cons] at this ⊢
    omega
  entries_ok := by
    have hok := h.entries_ok
    simp only [List.forall_mem_cons] at hok ⊢
    obtain ⟨ha, hb, hrest⟩ := hok
    exact ⟨mergeTrees_ok ha hb hexact, hrest⟩
  size_eq := by
    rw [← h.size_eq]
    simp only [totalSize_cons, mergeTrees_size]
    omega
  nodes_le := by
    have := h.nodes_le
    omega
  tree_ok := fun t ht => ⟨(h.tree_ok t ht).1, Nat.le_succ_of_le (h.tree_ok t ht).2⟩

/-- A tree of the list has at most the nodes of the whole list. -/
theorem size_le_totalSize {t : HuffTree} (h : t ∈ l) : t.size ≤ totalSize l :=
  List.single_le_sum (fun _ _ => Nat.zero_le _) _ (List.mem_map_of_mem h)

/-- Coalescing with exact weights keeps every entry good, whether or not there is anything to merge. -/
theorem coalesceAll_ok_of_exact (hok : ∀ t ∈ l, t.ok = true)
    (hexact : l.length < 2 ∨ totalWeight l < 2 ^ 32) : ∀ t ∈ coalesceAll l, t.ok = true := by
  rcases hexact with hshort | hweight
  · rwa [coalesceAll_of_length_le (by omega)]
  · exact coalesceAll_ok hok hweight

/-- Coalescing leaves the latched tree alone in the list, one node more for each merge (R145). -/
theorem ForestOk.coalesce (h : ForestOk l tree n) (hbudget : n + (l.length - 1) ≤ 511)
    (hexact : l.length < 2 ∨ totalWeight l < 2 ^ 32) :
    ForestOk (coalesceAll l) (coalesceAll l).head? (n + (l.length - 1)) := by
  have hok := coalesceAll_ok_of_exact h.entries_ok hexact
  have hsize : totalSize (coalesceAll l) = n + (l.length - 1) := by
    rw [totalSize_coalesceAll, h.size_eq]
  refine ⟨?_, hok, hsize, hbudget, fun t ht => ?_⟩
  · have := length_coalesceAll l
    omega
  · have hmem : t ∈ coalesceAll l := List.mem_of_mem_head? ht
    exact ⟨hok t hmem, hsize ▸ size_le_totalSize hmem⟩

end

/-! ## Every command keeps the invariant -/

theorem nnodes_succ_toNat {n : BitVec 9} (h : n.toNat ≠ 511) : (n + 1).toNat = n.toNat + 1 := by
  bv_omega

theorem nnodes_ofNat_toNat {n : Nat} (h : n ≤ 511) : (BitVec.ofNat 9 n).toNat = n := by
  rw [BitVec.toNat_ofNat]
  omega

/-- CTBLD's codewords fit their entries when the latched tree is within the node budget (R161). -/
theorem length_codeTableOf_le {tree : Option HuffTree} (h : ∀ t ∈ tree, t.size ≤ 511) (a : Symbol) :
    (readSym (codeTableOf tree) a).length ≤ 255 := by
  cases tree with
  | none => simp [codeTableOf]
  | some t => exact length_codeword_le (h t rfl) a

theorem resetState_inv (s : State) : (resetState s).Inv :=
  (inv_iff _).2 ⟨forestOk_nil, fun a => by simp, by simp⟩

theorem Effect.inv {i : Instr} {s t : State} (he : Effect s i t) (h : s.Inv) : t.Inv := by
  obtain ⟨hforest, hcodes, hpending⟩ := (inv_iff s).1 h
  rw [inv_iff]
  cases he with
  | kept | countsCleared | counted => exact ⟨hforest, hcodes, hpending⟩
  | reset => exact (inv_iff (resetState s)).1 (resetState_inv s)
  | listCleared => exact ⟨forestOk_nil, hcodes, hpending⟩
  | listLoaded =>
    refine ⟨?_, hcodes, hpending⟩
    have hbase := forestOk_baseList s.freq
    simpa [nnodes_ofNat_toNat hbase.nodes_le] using hbase
  | leafAdded _ a w x l _ hl hroom hbudget =>
    refine ⟨?_, hcodes, hpending⟩
    change ForestOk l s.tree (s.nnodes + 1).toNat
    rw [nnodes_succ_toNat hbudget]
    exact (hforest.cons_leaf hroom hbudget x a).perm hl
  | sorted => exact ⟨hforest.perm (initialSort_perm _), hcodes, hpending⟩
  | merged a b rest hfront hbudget hexact =>
    refine ⟨?_, hcodes, hpending⟩
    rw [hfront] at hforest
    change ForestOk _ s.tree (s.nnodes + 1).toNat
    rw [nnodes_succ_toNat hbudget]
    exact (hforest.merge hbudget hexact).perm (insertTree_perm rest _)
  | coalesced hbudget hexact =>
    refine ⟨?_, hcodes, hpending⟩
    simpa [nnodes_ofNat_toNat hbudget] using hforest.coalesce hbudget hexact
  | built l hl hexact =>
    refine ⟨?_, hcodes, hpending⟩
    have hbase : ForestOk l none l.length := hl ▸ forestOk_baseList s.freq
    have hperm := initialSort_perm l
    have hbudget : l.length + (l.length - 1) ≤ 511 := by
      have := hbase.length_le
      omega
    have := (hbase.perm hperm).coalesce (by rwa [hperm.length_eq])
      (by rwa [hperm.length_eq, totalWeight_perm hperm])
    simpa [nnodes_ofNat_toNat hbudget] using this
  | codesBuilt =>
    refine ⟨hforest, length_codeTableOf_le fun t ht => ?_, hpending⟩
    exact (hforest.tree_ok t ht).2.trans hforest.nodes_le
  | bitsAppended _ b =>
    refine ⟨?_, ?_, (appendBits_spec b s).2.2 hpending⟩
    · simpa [appendBits_fields] using hforest
    · simpa [appendBits_fields] using hcodes
  | flushed =>
    rw [flushPending_eq]
    refine ⟨hforest, hcodes, ?_⟩
    change (if s.nb = 0 then s.acc else 0).toNat < 2 ^ (0 : BitVec 3).toNat
    split
    · rwa [‹s.nb = 0›] at hpending
    · decide
  | bitsDropped => exact ⟨hforest, hcodes, by simp⟩

/-- The invariant is about the data state alone. -/
theorem inv_of_sameData {s t : State} (hd : SameData s t) (h : s.Inv) : t.Inv := by
  obtain ⟨hfreq, hpl, htree, hnnodes, hct, hacc, hnb⟩ := hd
  rw [inv_iff] at h ⊢
  rwa [hpl, htree, hnnodes, hct, hacc, hnb]

theorem rejectWord_sameData (w : Word) (s : State) : SameData s (rejectWord w s) := by
  unfold rejectWord
  split <;> exact ⟨rfl, rfl, rfl, rfl, rfl, rfl, rfl⟩

theorem setInput_inv {s : State} (h : s.Inv) (es : List HostEvent) : (s.setInput es).Inv :=
  inv_of_sameData (s := s) ⟨rfl, rfl, rfl, rfl, rfl, rfl, rfl⟩ h

theorem takeEvent_inv {e : HostEvent} {s t : State} (h : s.Inv) (he : takeEvent e s = .next t) :
    t.Inv := by
  cases e with
  | resetPin => cases he; exact resetState_inv s
  | command w =>
    simp only [takeEvent, acceptWord] at he
    split at he
    · exact (exec_effect he).inv h
    · cases he; exact inv_of_sameData (rejectWord_sameData w s) h

/-- Settles O58: an event taken from the host keeps the invariant, by the inversion of `exec`. -/
theorem stepKeepsInv : Obligations.StepKeepsInv := by
  intro s t h hstep
  simp only [step] at hstep
  split at hstep
  · cases hstep; exact h
  · exact takeEvent_inv (setInput_inv h _) hstep

/-- Settles O57: the reset state is the reset of itself. -/
theorem invAtReset : Obligations.InvAtReset := resetState_inv State.reset

/-- Every tree the block holds is good and within the node budget (R18, R20). -/
theorem ForestOk.held {pl : List HuffTree} {tree : Option HuffTree} {n : Nat} {t : HuffTree}
    (h : ForestOk pl tree n) (ht : t ∈ pl ∨ tree = some t) : t.ok = true ∧ t.size ≤ 511 := by
  have hn := h.nodes_le
  rcases ht with hmem | htree
  · have hsize := size_le_totalSize hmem
    rw [h.size_eq] at hsize
    exact ⟨h.entries_ok t hmem, hsize.trans hn⟩
  · obtain ⟨hok, hsize⟩ := h.tree_ok t htree
    exact ⟨hok, hsize.trans hn⟩

/-- Settles O43: the bounds on leaves and depths come from the node budget of 511. -/
theorem treeInvariants : Obligations.TreeInvariants := by
  intro s t h ht
  obtain ⟨hforest, -, -⟩ := (inv_iff s).1 h
  obtain ⟨hok, hsize⟩ := hforest.held ht
  obtain ⟨hrep, hleast⟩ := ok_rep hok
  refine ⟨ok_weight hok 0, hrep, hleast, ?_, fun x hx => ?_⟩
  · have hcount : t.size + 1 = 2 * t.leaves.length := size_eq_leaves t 0
    omega
  · have hdepth := depth_le hx
    omega

/-! ## Which commands write what -/

/-- Settles O16: among the effects, only those of FCLR, CNT, CTBLD and RST touch a table. -/
theorem tableWriters : Obligations.TableWriters := by
  intro i s t h
  cases exec_effect h <;> simp [appendBits_fields, flushPending_eq]

/-- Settles O17: an effect that writes PL, TREE or NNODES names its command. -/
theorem listAndTreeWriters : Obligations.ListAndTreeWriters := by
  intro i s t h
  cases exec_effect h with
  | leafAdded _ a w _ _ hi => exact ⟨fun _ => .inr ⟨a, w, hi⟩, by simp, fun _ => .inr ⟨a, w, hi⟩⟩
  | _ => simp [appendBits_fields, flushPending_eq]

/-- Settles O18: an effect that writes ACC, NB or OUT names its command; each byte goes to the end. -/
theorem packerWriters : Obligations.PackerWriters := by
  intro i s t h
  cases exec_effect h with
  | bitsAppended _ b hi =>
    exact ⟨fun _ => .inr hi, fun _ => .inr hi, ⟨_, (appendBits_spec b s).1.symm⟩⟩
  | flushed => simp [flushPending_eq]
  | _ => simp

/-! ## No command reads the traces -/

/-- The same data with `o` and `r` before the two traces, and other events of the host waiting. -/
def State.withHistory (o : List Byte) (r : List Response) (es : List HostEvent) (s : State) : State :=
  { s with out := o ++ s.out, rsp := r ++ s.rsp, input := es }

section
variable (o : List Byte) (r : List Response) (es : List HostEvent) (s : State)

@[simp] theorem withHistory_freq : (s.withHistory o r es).freq = s.freq := rfl
@[simp] theorem withHistory_pl : (s.withHistory o r es).pl = s.pl := rfl
@[simp] theorem withHistory_tree : (s.withHistory o r es).tree = s.tree := rfl
@[simp] theorem withHistory_nnodes : (s.withHistory o r es).nnodes = s.nnodes := rfl
@[simp] theorem withHistory_ct : (s.withHistory o r es).ct = s.ct := rfl
@[simp] theorem withHistory_acc : (s.withHistory o r es).acc = s.acc := rfl
@[simp] theorem withHistory_nb : (s.withHistory o r es).nb = s.nb := rfl
@[simp] theorem withHistory_fault : (s.withHistory o r es).fault = s.fault := rfl
@[simp] theorem withHistory_entryAt (k : ListIndex) :
    entryAt (s.withHistory o r es) k = entryAt s k := rfl

/-! The updates and the shared operations commute with a change of history. -/

@[simp] theorem setFreq_withHistory (f : FreqTable) :
    (s.withHistory o r es).setFreq f = (s.setFreq f).withHistory o r es := rfl
@[simp] theorem setPl_withHistory (l : List HuffTree) :
    (s.withHistory o r es).setPl l = (s.setPl l).withHistory o r es := rfl
@[simp] theorem setTree_withHistory (t : Option HuffTree) :
    (s.withHistory o r es).setTree t = (s.setTree t).withHistory o r es := rfl
@[simp] theorem setNNodes_withHistory (n : BitVec 9) :
    (s.withHistory o r es).setNNodes n = (s.setNNodes n).withHistory o r es := rfl
@[simp] theorem setCt_withHistory (c : CodeTable) :
    (s.withHistory o r es).setCt c = (s.setCt c).withHistory o r es := rfl
@[simp] theorem setPending_withHistory (a : BitVec 7) (n : BitVec 3) :
    (s.withHistory o r es).setPending a n = (s.setPending a n).withHistory o r es := rfl
@[simp] theorem setFault_withHistory (f : Option FaultKind) :
    (s.withHistory o r es).setFault f = (s.setFault f).withHistory o r es := rfl
@[simp] theorem resetState_withHistory :
    resetState (s.withHistory o r es) = (resetState s).withHistory o r es := rfl

@[simp] theorem emit_withHistory (b : Byte) :
    (s.withHistory o r es).emit b = (s.emit b).withHistory o r es := by
  simp [State.withHistory, State.emit]

@[simp] theorem record_withHistory (a : Response) :
    (s.withHistory o r es).record a = (s.record a).withHistory o r es := by
  simp [State.withHistory, State.record]

@[simp] theorem respond_withHistory (d : Word) :
    respond d (s.withHistory o r es) = (respond d s).withHistory o r es := by
  simp [respond]

@[simp] theorem raise_withHistory (k : FaultKind) (w : Word) :
    raise k w (s.withHistory o r es) = (raise k w s).withHistory o r es := by
  simp [raise]

@[simp] theorem refuseHalted_withHistory (w : Word) :
    refuseHalted w (s.withHistory o r es) = (refuseHalted w s).withHistory o r es := by
  simp [refuseHalted]

@[simp] theorem acknowledge_withHistory :
    acknowledge (s.withHistory o r es) = (acknowledge s).withHistory o r es := rfl

/-- A check whose condition reads data alone is the same in both histories. -/
@[simp] theorem withHistory_ite (c : Prop) [Decidable c] (a b : State) :
    (if c then a else b).withHistory o r es =
      if c then a.withHistory o r es else b.withHistory o r es :=
  apply_ite (State.withHistory o r es) c a b

/-! The effects of the commands commute with a change of history. -/

theorem appendBit_withHistory (b : Bool) :
    appendBit (s.withHistory o r es) b = (appendBit s b).withHistory o r es := by
  simp [appendBit]

theorem appendBits_withHistory (b : BitString) :
    appendBits (s.withHistory o r es) b = (appendBits s b).withHistory o r es := by
  induction b generalizing s with
  | nil => rfl
  | cons x xs ih => rw [appendBits_cons, appendBit_withHistory, ih, appendBits_cons]

theorem flushPending_withHistory :
    flushPending (s.withHistory o r es) = (flushPending s).withHistory o r es := by
  simp [flushPending]

theorem countElement_withHistory (cfg : Config) (v : InputElem) :
    countElement cfg v (s.withHistory o r es) = (countElement cfg v s).withHistory o r es := by
  cases hv : symbolOf v with
  | none => simp [countElement, hv]
  | some a => simp [countElement, hv]

theorem addLeaf_withHistory (cfg : Config) (i : Instr) (l : List HuffTree) :
    addLeaf cfg i l (s.withHistory o r es) = (addLeaf cfg i l s).withHistory o r es := by
  simp [addLeaf]

theorem readEntry_withHistory (i : Instr) (k : ListIndex) (d : HuffTree → Word) :
    readEntry i k d (s.withHistory o r es) = (readEntry i k d s).withHistory o r es := by
  cases hk : entryAt s k <;> simp [readEntry, hk]

theorem compareEntries_withHistory (k j : ListIndex) :
    compareEntries k j (s.withHistory o r es) = (compareEntries k j s).withHistory o r es := by
  cases hk : entryAt s k <;> cases hj : entryAt s j <;> simp [compareEntries, hk, hj]

theorem coalesceStep_withHistory (cfg : Config) :
    coalesceStep cfg (s.withHistory o r es) = (coalesceStep cfg s).withHistory o r es := by
  rcases hpl : s.pl with _ | ⟨a, _ | ⟨b, rest⟩⟩ <;> simp [coalesceStep, hpl]

theorem coalesceList_withHistory (cfg : Config) :
    coalesceList cfg (s.withHistory o r es) = (coalesceList cfg s).withHistory o r es := by
  simp [coalesceList]

theorem buildTree_withHistory (cfg : Config) :
    buildTree cfg (s.withHistory o r es) = (buildTree cfg s).withHistory o r es := by
  simp [buildTree]

theorem appendRaw_withHistory (cfg : Config) (n : BitVec 5) (pat : BitVec 16) :
    appendRaw cfg n pat (s.withHistory o r es) = (appendRaw cfg n pat s).withHistory o r es := by
  simp [appendRaw, appendBits_withHistory]

/-- A command that can be refused commutes with a change of history when its own rule does: the halted
check reads FAULT alone (R199). -/
theorem exec_withHistory_of_running {i : Instr} {f : State → State} {s t : State}
    (hi : i.isControl = false) (h : exec i s = .next t)
    (hrun : ∀ {u : State}, u.fault = none → exec i u = .next (f u))
    (hf : f (s.withHistory o r es) = (f s).withHistory o r es) :
    exec i (s.withHistory o r es) = .next (t.withHistory o r es) := by
  by_cases hs : s.fault = none
  · cases (hrun hs).symm.trans h
    rw [hrun (u := s.withHistory o r es) hs, hf]
  · cases (exec_halted hs hi).symm.trans h
    rw [exec_halted (s := s.withHistory o r es) hs hi, refuseHalted_withHistory]

/-- A command does the same to the data, and adds the same to the traces, whatever the history. -/
theorem exec_withHistory {i : Instr} {s t : State} (h : exec i s = .next t) :
    exec i (s.withHistory o r es) = .next (t.withHistory o r es) := by
  have running := @exec_withHistory_of_running o r es i
  cases i with
  | nop => cases h; simp
  | rst => cases h; simp
  | stat => cases h; exact congrArg _ (respond_withHistory o r es s _)
  | errack => cases h; simp
  | fclr => exact running rfl h exec_fclr (by simp)
  | cnt v => exact running rfl h (exec_cnt · v) (countElement_withHistory o r es s _ v)
  | frd a => exact running rfl h (exec_frd · a) (by simp)
  | plclr => exact running rfl h exec_plclr (by simp)
  | base => exact running rfl h exec_base (by simp [loadBaseList])
  | plapp a w => exact running rfl h (exec_plapp · a w) (addLeaf_withHistory o r es s _ _ _)
  | plins a w => exact running rfl h (exec_plins · a w) (addLeaf_withHistory o r es s _ _ _)
  | sort => exact running rfl h exec_sort (by simp)
  | pllen => exact running rfl h exec_pllen (respond_withHistory o r es s _)
  | plrdw k => exact running rfl h (exec_plrdw · k) (readEntry_withHistory o r es s _ k _)
  | plrdk k => exact running rfl h (exec_plrdk · k) (readEntry_withHistory o r es s _ k _)
  | pllt k j => exact running rfl h (exec_pllt · k j) (compareEntries_withHistory o r es s k j)
  | co1 => exact running rfl h exec_co1 (coalesceStep_withHistory o r es s _)
  | coall => exact running rfl h exec_coall (coalesceList_withHistory o r es s _)
  | build => exact running rfl h exec_build (buildTree_withHistory o r es s _)
  | ctbld => exact running rfl h exec_ctbld (by simp)
  | ctlen a => exact running rfl h (exec_ctlen · a) (by simp)
  | ctrd a c => exact running rfl h (exec_ctrd · a c) (by simp)
  | enc v => exact running rfl h (exec_enc · v) (by simp [appendBits_withHistory])
  | bits n pat => exact running rfl h (exec_bits · n pat) (appendRaw_withHistory o r es s _ n pat)
  | flush => exact running rfl h exec_flush (by simp [flushPending_withHistory])
  | bpclr => exact running rfl h exec_bpclr (by simp)

end

/-- A command adds exactly one response at the end of RSP (R27). -/
theorem Effect.rsp_append {i : Instr} {s t : State} (he : Effect s i t) :
    ∃ a, t.rsp = s.rsp ++ [a] := by
  cases he <;> simp [appendBits_fields, flushPending_eq]

/-- The state with empty traces and no event waiting: all that a command can read. -/
def State.withoutHistory (s : State) : State := { s with out := [], rsp := [], input := [] }

theorem withHistory_withoutHistory (o : List Byte) (r : List Response) (es : List HostEvent)
    (s : State) : s.withoutHistory.withHistory o r es = { s with out := o, rsp := r, input := es } := by
  simp [State.withHistory, State.withoutHistory]

/-- Settles O20: the command is run once with no history; its runs with any two histories follow. -/
theorem tracesAreNotRead : Obligations.TracesAreNotRead := by
  intro i s o r es
  obtain ⟨u, hu⟩ := exec_total i s.withoutHistory
  obtain ⟨resp, hresp⟩ := (exec_effect hu).rsp_append
  have hrsp : u.rsp = [resp] := hresp
  have hself : s.withoutHistory.withHistory s.out s.rsp s.input = s :=
    withHistory_withoutHistory s.out s.rsp s.input s
  refine ⟨u.withHistory s.out s.rsp s.input, u.out, resp, ?_, rfl, ?_, ?_⟩
  · simpa only [hself] using exec_withHistory s.out s.rsp s.input hu
  · simp [State.withHistory, hrsp]
  · rw [← withHistory_withoutHistory o r es s, exec_withHistory o r es hu]
    simp [State.withHistory, hrsp]

/-! ## Reset, and the step -/

theorem resetState_atReset (s : State) : AtReset (resetState s) := by
  simp [AtReset]

/-- Settles O5: the pin and RST share `resetState`, and the state of a new run is the reset of itself. -/
theorem resetValues : Obligations.ResetValues :=
  ⟨⟨resetState_atReset State.reset, rfl, rfl⟩,
    fun s rest => ⟨resetState (s.setInput rest), rfl, resetState_atReset _, rfl, rfl, rfl⟩,
    fun s => ⟨respond 0 (resetState s), rfl, resetState_atReset s, rfl, rfl, rfl⟩⟩

/-- Settles O7: accepting a word that decodes is executing its command. -/
theorem stepRunsDecoded : Obligations.StepRunsDecoded := by
  intro s w rest i hdecode
  have haccept : acceptWord w (s.setInput rest) = exec i (s.setInput rest) := by
    rw [acceptWord, hdecode]
  exact haccept

end Sys2Proof.Machine

namespace Sys2Proof.Machine

/-! ## The read commands -/

/-- RST and ERRACK apart, a command that ends normally leaves FAULT as it was: a refusal answers Halted,
and a running command that latches a fault answers with its code (R198, R199). -/
theorem fault_of_ok {i : Instr} {s t : State} {d : Word} (hrst : i ≠ .rst) (herrack : i ≠ .errack)
    (h : exec i s = .next t) (hok : t.rsp = s.rsp ++ [⟨.ok, d⟩]) : t.fault = s.fault := by
  rcases exec_running_or_halted i s with hs | hcontrol | ⟨-, hrefused⟩
  · obtain ⟨k, -, -, rfl⟩ | ⟨-, ht, -, -⟩ := exec_running_cases i s t hs h
    · simp at hok
    · rw [ht, hs]
  · cases i with
    | nop | stat => cases h; rfl
    | rst => exact absurd rfl hrst
    | errack => exact absurd rfl herrack
    | _ => cases hcontrol
  · cases hrefused.symm.trans h
    simp at hok

/-- Settles O19: the only effect of a read or NOP keeps all data, and FAULT stays when the response is
OK. -/
theorem readsHaveNoSideEffects : Obligations.ReadsHaveNoSideEffects := by
  intro i s t d hread h hok
  have hfault : t.fault = s.fault :=
    fault_of_ok (by rintro rfl; simp at hread) (by rintro rfl; simp at hread) h hok
  cases exec_effect h with
  | kept _ f r =>
    rw [State.record_fault, State.setFault_fault] at hfault
    subst hfault
    rfl
  | leafAdded _ _ _ _ _ command => rcases command with rfl | rfl <;> simp at hread
  | bitsAppended _ _ command => rcases command with ⟨_, rfl⟩ | ⟨_, _, rfl⟩ <;> simp at hread
  | _ => simp at hread

end Sys2Proof.Machine

namespace Sys2Proof.Machine

/-! ## Command words (30_encoding.md R61 to R66) -/

/-- Every command has the property of its row of the encoding family. -/
theorem encodedRow (i : Instr) : Laws.EncodedRow.Statement i := by
  cases i with
  | nop => exact Laws.EncodedRow.nop
  | rst => exact Laws.EncodedRow.rst
  | stat => exact Laws.EncodedRow.stat
  | errack => exact Laws.EncodedRow.errack
  | fclr => exact Laws.EncodedRow.fclr
  | cnt v => exact Laws.EncodedRow.cnt v
  | frd a => exact Laws.EncodedRow.frd a
  | plclr => exact Laws.EncodedRow.plclr
  | base => exact Laws.EncodedRow.base
  | plapp a w => exact Laws.EncodedRow.plapp a w
  | plins a w => exact Laws.EncodedRow.plins a w
  | sort => exact Laws.EncodedRow.sort
  | pllen => exact Laws.EncodedRow.pllen
  | plrdw k => exact Laws.EncodedRow.plrdw k
  | plrdk k => exact Laws.EncodedRow.plrdk k
  | pllt k j => exact Laws.EncodedRow.pllt k j
  | co1 => exact Laws.EncodedRow.co1
  | coall => exact Laws.EncodedRow.coall
  | build => exact Laws.EncodedRow.build
  | ctbld => exact Laws.EncodedRow.ctbld
  | ctlen a => exact Laws.EncodedRow.ctlen a
  | ctrd a c => exact Laws.EncodedRow.ctrd a c
  | enc v => exact Laws.EncodedRow.enc v
  | bits n pat => exact Laws.EncodedRow.bits n pat
  | flush => exact Laws.EncodedRow.flush
  | bpclr => exact Laws.EncodedRow.bpclr

/-- Settles O2: the word of a command finds its row, passes the reserved-field check, and its fields
make the command again. -/
theorem decodeOfEncode : Obligations.DecodeOfEncode := by
  intro i hwf
  obtain ⟨r, hrow, hreserved, hbuild⟩ := encodedRow i
  exact (decode_eq_some_iff (encode i) i).2 ⟨r, hrow, hreserved, hbuild, hwf⟩

/-! A word whose bits above the operand fields are the opcode byte followed by zeros is its opcode byte
with its fields put back at their places: one lemma for each format of R61. -/

/-- The bits of the word above the operand fields of the format are the opcode byte followed by zeros. -/
def FormatMatches (f : Format) (op : Byte) (w : Word) : Prop :=
  w.toNat / 2 ^ f.freeBits = op.toNat * 2 ^ (24 - f.freeBits)

theorem formatMatches_iff (w : Word) (r : OpcodeRow) :
    FormatMatches r.format r.op w ↔ w &&& r.format.mask = r.matchWord :=
  (matches_iff w r).symm

section
variable {op : Byte} {w : Word}

theorem formatZ_of_matches (h : FormatMatches .z op w) : op ++ 0#24 = w := by
  refine BitVec.eq_of_toNat_eq ((append_toNat op 0#24).trans ?_)
  change w.toNat / 2 ^ 0 = op.toNat * 2 ^ 24 at h
  rw [BitVec.toNat_zero]
  omega

theorem formatV_of_matches (h : FormatMatches .v op w) : op ++ vField w = w := by
  refine BitVec.eq_of_toNat_eq ((formatV_toNat op _).trans ?_)
  change w.toNat / 2 ^ 24 = op.toNat * 2 ^ 0 at h
  rw [vField, field_toNat]
  omega

theorem formatS_of_matches (h : FormatMatches .s op w) : op ++ 0#16 ++ sField w = w := by
  refine BitVec.eq_of_toNat_eq ((formatS_toNat op _).trans ?_)
  change w.toNat / 2 ^ 8 = op.toNat * 2 ^ 16 at h
  rw [sField, field_toNat]
  omega

theorem formatL_of_matches (h : FormatMatches .l op w) :
    op ++ leafSymbolField w ++ leafWeightField w = w := by
  refine BitVec.eq_of_toNat_eq ((formatL_toNat op _ _).trans ?_)
  change w.toNat / 2 ^ 24 = op.toNat * 2 ^ 0 at h
  rw [leafSymbolField, leafWeightField, field_toNat, field_toNat]
  omega

theorem formatI_of_matches (h : FormatMatches .i op w) : op ++ 0#12 ++ iField w = w := by
  refine BitVec.eq_of_toNat_eq ((formatI_toNat op _).trans ?_)
  change w.toNat / 2 ^ 12 = op.toNat * 2 ^ 12 at h
  rw [iField, field_toNat]
  omega

theorem formatJ_of_matches (h : FormatMatches .j op w) : op ++ jField w ++ iField w = w := by
  refine BitVec.eq_of_toNat_eq ((formatJ_toNat op _ _).trans ?_)
  change w.toNat / 2 ^ 24 = op.toNat * 2 ^ 0 at h
  rw [jField, iField, field_toNat, field_toNat]
  omega

theorem formatC_of_matches (h : FormatMatches .c op w) :
    op ++ 0#13 ++ cField w ++ sField w = w := by
  refine BitVec.eq_of_toNat_eq ((formatC_toNat op _ _).trans ?_)
  change w.toNat / 2 ^ 11 = op.toNat * 2 ^ 13 at h
  rw [cField, sField, field_toNat, field_toNat]
  omega

theorem formatB_of_matches (h : FormatMatches .b op w) :
    op ++ 0#3 ++ nField w ++ patField w = w := by
  refine BitVec.eq_of_toNat_eq ((formatB_toNat op _ _).trans ?_)
  change w.toNat / 2 ^ 21 = op.toNat * 2 ^ 3 at h
  rw [nField, patField, field_toNat, field_toNat]
  omega

end

/-- Encoding the command a row makes of a word's fields gives the word back, when the word passes the
row's reserved-field check. -/
theorem encode_build : ∀ r ∈ opcodeTable, ∀ w : Word, FormatMatches r.format r.op w →
    encode (r.build w) = w := by
  simp only [opcodeTable, List.cons_append, List.nil_append, List.forall_mem_cons]
  exact ⟨
    -- 0x00 to 0x03
    @formatZ_of_matches _, @formatZ_of_matches _, @formatZ_of_matches _, @formatZ_of_matches _,
    -- 0x10 to 0x12
    @formatZ_of_matches _, @formatV_of_matches _, @formatS_of_matches _,
    -- 0x20 to 0x28
    @formatZ_of_matches _, @formatZ_of_matches _, @formatL_of_matches _, @formatL_of_matches _,
    @formatZ_of_matches _, @formatZ_of_matches _, @formatI_of_matches _, @formatI_of_matches _,
    @formatJ_of_matches _,
    -- 0x30 to 0x32
    @formatZ_of_matches _, @formatZ_of_matches _, @formatZ_of_matches _,
    -- 0x40 to 0x42
    @formatZ_of_matches _, @formatS_of_matches _, @formatC_of_matches _,
    -- 0x50 to 0x53
    @formatV_of_matches _, @formatB_of_matches _, @formatZ_of_matches _, @formatZ_of_matches _,
    List.forall_mem_nil _⟩

/-- Settles O3: the row of the word keeps every bit of it in the opcode byte, the zeros and the fields. -/
theorem encodeOfDecode : Obligations.EncodeOfDecode := by
  intro w i hdecode
  obtain ⟨r, hrow, hreserved, rfl, hwf⟩ := (decode_eq_some_iff w i).1 hdecode
  exact ⟨hwf, encode_build r (opcodeRow_some hrow).1 w ((formatMatches_iff w r).2 hreserved)⟩

/-! The illegal words. -/

/-- The check of the row of a word's own opcode byte is about the reserved field alone: the bits between
the operand fields and the opcode byte (R61, R66). -/
theorem matches_iff_reserved_zero {w : Word} {r : OpcodeRow} (hop : r.op = opField w) :
    w &&& r.format.mask = r.matchWord ↔
      w.extractLsb' r.format.freeBits (24 - r.format.freeBits) = 0 := by
  rw [matches_iff, hop, ← BitVec.toNat_inj, opField, field_toNat, field_toNat, BitVec.ofNat_eq_ofNat,
    BitVec.toNat_zero]
  have hw : w.toNat < 2 ^ 32 := w.isLt
  cases r.format <;> simp only [Format.freeBits] <;> omega

/-- A word with no row is illegal (R64 (a)). -/
theorem decode_eq_none_of_no_row {w : Word} (h : opcodeRow (opField w) = none) : decode w = none := by
  rw [Option.eq_none_iff_forall_ne_some]
  intro i hi
  obtain ⟨r, hrow, -⟩ := (decode_eq_some_iff w i).1 hi
  simp [h] at hrow

/-- A word with a row is illegal exactly when its reserved field is not zero or its command is not well
formed (R64 (b), (c)). -/
theorem decode_eq_none_iff_of_row {w : Word} {r : OpcodeRow} (h : opcodeRow (opField w) = some r) :
    decode w = none ↔ w.extractLsb' r.format.freeBits (24 - r.format.freeBits) ≠ 0 ∨
      (r.build w).wf = false := by
  rw [Option.eq_none_iff_forall_ne_some]
  simp only [ne_eq, decode_eq_some_iff, h, Option.some.injEq, exists_eq_left',
    matches_iff_reserved_zero (opcodeRow_some h).2]
  rw [← Bool.not_eq_true, ← not_and_or]
  exact ⟨fun hno ⟨hzero, hwf⟩ => hno _ ⟨hzero, rfl, hwf⟩,
    fun hno i ⟨hzero, hbuild, hwf⟩ => hno ⟨hzero, hbuild ▸ hwf⟩⟩

/-- The assigned opcode bytes, by the format of their rows (R61, R63). -/
theorem opcode_iff_format : ∀ r ∈ opcodeTable,
    (r.op ∈ ([0x00, 0x01, 0x02, 0x03, 0x10, 0x20, 0x21, 0x24, 0x25, 0x30, 0x31, 0x32, 0x40, 0x52, 0x53] :
      List Byte) ↔ r.format = .z) ∧
    (r.op ∈ ([0x12, 0x41] : List Byte) ↔ r.format = .s) ∧
    (r.op ∈ ([0x26, 0x27] : List Byte) ↔ r.format = .i) ∧
    (r.op = 0x42 ↔ r.format = .c) ∧ (r.op = 0x51 ↔ r.format = .b) := by
  decide

theorem wf_eq_false_iff (i : Instr) :
    i.wf = false ↔ ∃ n pat, i = .bits n pat ∧ 16 < n.toNat := by
  cases i with
  | bits n pat =>
    have hwf : (Instr.bits n pat).wf = decide (n.toNat ≤ 16) := rfl
    simp [hwf]
  | _ => simp [Instr.wf, Instr.wfIn]

/-- Of the commands the rows make only BITS can be ill formed (R64 (c)). -/
theorem wf_build_eq_false_iff : ∀ r ∈ opcodeTable, ∀ w : Word,
    (r.build w).wf = false ↔ r.op = 0x51 ∧ 16 < (nField w).toNat := by
  simp [opcodeTable, wf_eq_false_iff]

/-- Settles O4: by whether the word has a row, and by the format of the row. -/
theorem illegalWords : Obligations.IllegalWords := by
  intro w
  change decode w = none ↔ opField w ∉ opcodeTable.map OpcodeRow.op ∨ _
  cases hrow : opcodeRow (opField w) with
  | none =>
    have hnot : opField w ∉ opcodeTable.map OpcodeRow.op := by
      simpa [opcodeRow] using hrow
    exact ⟨fun _ => .inl hnot, fun _ => decode_eq_none_of_no_row hrow⟩
  | some r =>
    obtain ⟨hmem, hop⟩ := opcodeRow_some hrow
    have hassigned : opField w ∈ opcodeTable.map OpcodeRow.op := hop ▸ List.mem_map_of_mem hmem
    obtain ⟨hz, hs, hi, hc, hb⟩ := opcode_iff_format r hmem
    rw [decode_eq_none_iff_of_row hrow, wf_build_eq_false_iff r hmem, ← opField, ← hop, hz, hs, hi,
      hc, hb]
    cases r.format <;> simp [hop, hassigned, Format.freeBits, nField]

/-- Settles O1: each row of R80 is one closed run of the decoder. -/
theorem workedEncodings : Obligations.WorkedEncodings := by
  unfold Obligations.WorkedEncodings
  decide

/-! ## The code table -/

/-- A symbol of the tree has a path in it, which is its codeword when no symbol has two leaves (R160). -/
theorem codeword_mem_paths {r : HuffTree} (hnd : r.symbols.Nodup) {a : Symbol} (ha : a ∈ r.symbols) :
    (a, readSym (codeTableOf (some r)) a) ∈ r.pathsFrom [] := by
  rw [← pathsFrom_symbols r []] at ha
  obtain ⟨x, hx, rfl⟩ := List.mem_map.1 ha
  rwa [readSym_codeTable_of_path hnd hx]

/-- Settles O45: two codewords are paths of two leaves, and these part at some node. -/
theorem prefixFree : Obligations.PrefixFree := by
  intro s t r hs hr hnd h a ha b hb hab
  rw [exec_ctbld hs, hr] at h
  cases h
  have hsymm : Std.Symm fun x y : Symbol × BitString => ¬ x.2 <+: y.2 ∧ ¬ y.2 <+: x.2 :=
    ⟨fun _ _ h => h.symm⟩
  exact ((pathsFrom_pairwise r []).forall (codeword_mem_paths hnd ha) (codeword_mem_paths hnd hb)
    fun e => hab (congrArg Prod.fst e)).1

/-- Bit `254 − k` of a physical entry is element `k` of the codeword, 0 beyond its length (R77). -/
theorem physCode_getLsbD (b : BitString) {k : Nat} (hk : k < 255) :
    (physCode b).getLsbD (254 - k) = b.getD k false := by
  have hpos : 254 - k < 255 := by omega
  have hpos' : 254 - (254 - k) = k := by omega
  simp only [physCode, BitVec.getLsbD_ofFnLE, dif_pos hpos, hpos']

/-- Settles O49: the length fits 8 bits, and every position of the code half is read off. -/
theorem physicalEntry : Obligations.PhysicalEntry := by
  intro b hb
  refine ⟨?_, fun k hk => ?_, fun k hk hlen => ?_⟩
  · rw [physLen, BitVec.toNat_ofNat, Nat.mod_eq_of_lt (by omega)]
  · rw [physCode_getLsbD b (by omega), List.getD_eq_getElem _ _ hk]
  · rw [physCode_getLsbD b hk, List.getD_eq_default _ _ hlen]

/-! ## One response per command -/

/-- Every command adds one response at the end of RSP and leaves the host's events; unless the response
is OK it carries the command's word and no byte leaves (R27, R70, R198, R199). -/
theorem exec_response {i : Instr} {s t : State} (h : exec i s = .next t) : t.input = s.input ∧
    ∃ r, t.rsp = s.rsp ++ [r] ∧ (r.code = .ok ∨ (r.data = encode i ∧ t.out = s.out)) := by
  rcases exec_running_or_halted i s with hs | hcontrol | ⟨-, hrefused⟩
  · obtain ⟨k, -, -, rfl⟩ | ⟨-, -, hinput, d, hrsp⟩ := exec_running_cases i s t hs h
    · exact ⟨rfl, _, rfl, .inr ⟨rfl, rfl⟩⟩
    · exact ⟨hinput, _, hrsp, .inl rfl⟩
  · cases i with
    | nop | rst | stat | errack => cases h; exact ⟨rfl, _, rfl, .inl rfl⟩
    | _ => cases hcontrol
  · cases hrefused.symm.trans h
    exact ⟨rfl, _, rfl, .inr ⟨rfl, rfl⟩⟩

theorem length_codeOf_le {ct : CodeTable} (h : ∀ a, (readSym ct a).length ≤ 255) (v : InputElem) :
    (codeOf ct v).length ≤ 255 := by
  unfold codeOf
  split
  · exact h _
  · simp

/-- At most 7 pending bits and 255 new ones make at most 32 bytes (R176). -/
theorem length_out_appendBits_le (s : State) {b : BitString} (h : b.length ≤ 255) :
    (appendBits s b).out.length ≤ s.out.length + 32 := by
  have hcount := (appendBits_counts b s).2
  have hnb := nb_toNat_lt s
  omega

theorem length_out_flushPending (s : State) :
    (flushPending s).out.length = s.out.length + (s.nb.toNat + 7) / 8 := by
  simp [flushPending_eq]

@[simp] theorem length_rawBits (n : BitVec 5) (pat : BitVec 16) :
    (rawBits n pat).length = n.toNat := by
  simp [rawBits]

/-- At most 32 bytes leave in one command when the codewords fit their entries. -/
theorem length_out_exec_le {i : Instr} {s t : State} (hcodes : ∀ a, (readSym s.ct a).length ≤ 255)
    (h : exec i s = .next t) : t.out.length ≤ s.out.length + 32 := by
  by_cases hout : t.out = s.out
  · rw [hout]
    exact Nat.le_add_right _ _
  have hwriter := (packerWriters i s t h).2.1 hout
  have hs : s.fault = none := by
    by_contra hs
    have hi : i.isControl = false := by obtain rfl | ⟨v, rfl⟩ | ⟨n, pat, rfl⟩ := hwriter <;> rfl
    cases (exec_halted hs hi).symm.trans h
    exact hout rfl
  obtain rfl | ⟨v, rfl⟩ | ⟨n, pat, rfl⟩ := hwriter
  · cases (exec_flush hs).symm.trans h
    have hnb := nb_toNat_lt s
    rw [respond_out, length_out_flushPending]
    omega
  · cases (exec_enc hs v).symm.trans h
    exact length_out_appendBits_le s (length_codeOf_le hcodes v)
  · cases (exec_bits hs n pat).symm.trans h
    have hraw : (rawBits n pat).length ≤ 255 := by
      have hn : n.toNat < 2 ^ 5 := n.isLt
      rw [length_rawBits]
      omega
    rcases appendRaw_cases Config.hardware n pat s with ⟨-, he⟩ | ⟨-, he⟩ <;> rw [he]
    · exact Nat.le_add_right _ _
    · exact length_out_appendBits_le s hraw

/-- A word that does not decode gets one response, which carries it, and no byte leaves (R199, R200). -/
theorem rejectWord_response (w : Word) (s : State) : (rejectWord w s).input = s.input ∧
    (rejectWord w s).out = s.out ∧ ∃ c, (rejectWord w s).rsp = s.rsp ++ [⟨c, w⟩] := by
  unfold rejectWord
  split <;> exact ⟨rfl, rfl, _, rfl⟩

/-- Settles O10: a word that decodes is the word of the command executed; any other is rejected. -/
theorem oneResponsePerCommand : Obligations.OneResponsePerCommand := by
  intro s w rest hinv
  have hstep : step (s.setInput (.command w :: rest)) = acceptWord w (s.setInput rest) := rfl
  rw [hstep, acceptWord]
  cases hdecode : decode w with
  | none =>
    obtain ⟨hinput, hout, c, hrsp⟩ := rejectWord_response w (s.setInput rest)
    exact ⟨_, _, [], rfl, hinput, hrsp, by simp [hout], by simp, .inr ⟨rfl, rfl⟩⟩
  | some i =>
    obtain ⟨t, ht⟩ := exec_total i (s.setInput rest)
    obtain ⟨hinput, r, hrsp, hcode⟩ := exec_response ht
    obtain ⟨bytes, hbytes⟩ := (packerWriters i _ t ht).2.2
    have hlen := length_out_exec_le (s := s.setInput rest) hinv.codeLength ht
    rw [(encodeOfDecode w i hdecode).2] at hcode
    refine ⟨t, r, bytes, ht, hinput, hrsp, hbytes.symm, ?_,
      hcode.imp_right fun ⟨hdata, hout⟩ => ⟨hdata, ?_⟩⟩
    · rw [← hbytes, List.length_append] at hlen
      omega
    · rw [hout] at hbytes
      exact List.append_right_eq_self.1 hbytes

end Sys2Proof.Machine

namespace Sys2Proof.Machine

/-! ## Control commands

STATUS is its fields one after the other (R24), so each field is read off by dropping those below it. -/

section
variable (s : State)

/-- Above FAULT and TV, STATUS holds NB, then ACC, then zeros (R24). -/
theorem status_above_tv (lo len : Nat) :
    s.status.extractLsb' (5 + lo) len = (0#17 ++ s.acc ++ s.nb).extractLsb' lo len := calc
  _ = (0#17 ++ s.acc ++ s.nb ++ s.tv).extractLsb' (5 + lo - 4) len :=
    BitVec.extractLsb'_append_eq_of_le (by omega)
  _ = (0#17 ++ s.acc ++ s.nb).extractLsb' (5 + lo - 4 - 1) len :=
    BitVec.extractLsb'_append_eq_of_le (by omega)
  _ = _ := by rw [show 5 + lo - 4 - 1 = lo by omega]

@[simp] theorem status_fault : s.status.extractLsb' 0 4 = s.faultReg :=
  BitVec.extractLsb'_append_eq_right

@[simp] theorem status_tv : s.status.getLsbD 4 = s.tree.isSome := calc
  _ = (0#17 ++ s.acc ++ s.nb ++ s.tv).getLsbD 0 := BitVec.getLsbD_append
  _ = s.tv.getLsbD 0 := BitVec.getLsbD_append
  _ = s.tree.isSome := BitVec.getLsbD_ofBool _ 0

@[simp] theorem status_nb : s.status.extractLsb' 5 3 = s.nb :=
  (status_above_tv s 0 3).trans BitVec.extractLsb'_append_eq_right

@[simp] theorem status_acc : s.status.extractLsb' 8 7 = s.acc := calc
  _ = (0#17 ++ s.acc).extractLsb' 0 7 :=
    (status_above_tv s 3 7).trans (BitVec.extractLsb'_append_eq_of_le (by decide))
  _ = s.acc := BitVec.extractLsb'_append_eq_right

@[simp] theorem status_zeros : s.status.extractLsb' 15 17 = 0 := calc
  _ = (0#17 ++ s.acc).extractLsb' 7 17 :=
    (status_above_tv s 10 17).trans (BitVec.extractLsb'_append_eq_of_le (by decide))
  _ = 0 := BitVec.extractLsb'_append_eq_left

end

/-- Settles O22: STAT is not refused while halted, and the word it answers is read field by field. -/
theorem statReadsStatus : Obligations.StatReadsStatus :=
  ⟨rfl, fun s => ⟨s.status, exec_stat s, status_fault s,
    by rw [status_tv, Option.isSome_iff_ne_none], status_nb s, status_acc s, status_zeros s⟩⟩

/-- Settles O21: neither command is refused while halted, and each effect is one update and the
response. -/
theorem nopAndErrack : Obligations.NopAndErrack :=
  ⟨⟨rfl, rfl⟩, fun s => ⟨exec_nop s, exec_errack s⟩⟩

end Sys2Proof.Machine

namespace Sys2Proof.Machine

/-! ## The frequency counter

`exec_cnt_of_room` is the one rule of CNT below the limit; the counts of a text follow by induction. -/

/-- Settles O23: each command does what its rule says, as none is halted. -/
theorem clearAndReadCounts : Obligations.ClearAndReadCounts :=
  ⟨⟨rfl, fun a => formatS_toNat _ a⟩, fun _ hs =>
    ⟨⟨clearedTable 0, readSym_clearedTable 0, exec_fclr hs⟩, fun a => exec_frd hs a⟩⟩

section
variable {s : State} (hs : s.fault = none)
include hs

/-- CNT below the limit answers (OK, 0) and writes at most FREQ, where the count of the element, if the
element is a symbol, goes up by one (R101). -/
theorem exec_cnt_of_room {v : InputElem}
    (hroom : ∀ a : Symbol, v.toNat = a.toNat → (readSym s.freq a).toNat < 2 ^ 32 - 1) :
    ∃ f : FreqTable, exec (.cnt v) s = .next (respond 0 (s.setFreq f)) ∧
      ∀ a : Symbol, (readSym f a).toNat =
        (readSym s.freq a).toNat + if v.toNat = a.toNat then 1 else 0 := by
  rw [exec_cnt hs]
  obtain ⟨hv, he⟩ | ⟨b, hb, ⟨hfull, -⟩ | ⟨-, he⟩⟩ := countElement_cases Config.hardware v s
  · refine ⟨s.freq, congrArg _ he, fun a => ?_⟩
    have ha : a.toNat < 2 ^ 8 := a.isLt
    rw [if_neg (by omega), Nat.add_zero]
  · exact absurd hfull (Nat.ne_of_lt (hroom b hb))
  · refine ⟨_, congrArg _ he, fun a => ?_⟩
    have hlt := hroom b hb
    by_cases hab : a = b
    · subst hab
      rw [readSym_writeSym_same, if_pos hb]
      exact BitVec.toNat_add_of_lt (Nat.add_lt_of_lt_sub hlt)
    · have hne : v.toNat ≠ a.toNat := fun h => hab (BitVec.eq_of_toNat_eq (h.symm.trans hb))
      rw [readSym_writeSym_other _ _ hab, if_neg hne, Nat.add_zero]

/-- An element above 255 is ignored (R14, R101). -/
theorem exec_cnt_above {v : InputElem} (hv : 255 < v.toNat) :
    exec (.cnt v) s = .next (respond 0 s) := by
  rw [exec_cnt hs, countElement, symbolOf_eq_none.2 hv]

/-- A count at the limit raises CountOverflow (R101, R201). -/
theorem exec_cnt_full {v : InputElem} {a : Symbol} (ha : v.toNat = a.toNat)
    (hfull : (readSym s.freq a).toNat = 2 ^ 32 - 1) :
    exec (.cnt v) s = .next (raise .countOverflow (encode (.cnt v)) s) := by
  rw [exec_cnt hs, countElement, symbolOf_eq_some.2 ha]
  exact congrArg _ (if_pos hfull)

end

/-- Settles O24: by whether the element is a symbol, and whether the symbol's count is at the limit. -/
theorem Freq.countElement : Obligations.CountElement := by
  refine ⟨fun v => formatV_toNat _ v, fun v s hs => ⟨exec_cnt_above hs, fun a ha => ⟨fun hlt => ?_,
    fun hfull => (exec_cnt_full hs ha hfull).trans (congrArg _ (raise_eq hs _ _))⟩⟩⟩
  have hroom : ∀ b : Symbol, v.toNat = b.toNat → (readSym s.freq b).toNat < 2 ^ 32 - 1 := by
    intro b hb
    rwa [← BitVec.eq_of_toNat_eq (ha.symm.trans hb)]
  obtain ⟨f, hexec, hf⟩ := exec_cnt_of_room hs hroom
  refine ⟨f, hexec, by rw [hf, if_pos ha], fun b hb => BitVec.eq_of_toNat_eq ?_⟩
  have hne : v.toNat ≠ b.toNat := fun h => hb (BitVec.eq_of_toNat_eq (h.symm.trans ha))
  rw [hf, if_neg hne, Nat.add_zero]

/-- Counting a text, when no count can reach the limit, adds to every count the occurrences of its
symbol and writes nothing but FREQ and RSP (R103 (a), (b)). -/
theorem execAll_cnt {text : List InputElem} {s : State} (hs : s.fault = none)
    (hroom : ∀ a, (readSym s.freq a).toNat + text.length < 2 ^ 32) :
    ∃ t, execAll (text.map .cnt) s = .next t ∧ t = { s with freq := t.freq, rsp := t.rsp } ∧
      ∀ a : Symbol, (readSym t.freq a).toNat =
        (readSym s.freq a).toNat + text.countP fun v => v.toNat == a.toNat := by
  induction text generalizing s with
  | nil => exact ⟨s, rfl, rfl, fun a => rfl⟩
  | cons v text ih =>
    simp only [List.length_cons] at hroom
    obtain ⟨f, hexec, hf⟩ := exec_cnt_of_room (v := v) hs fun a _ => by have := hroom a; omega
    have hroom' (a : Symbol) : (readSym f a).toNat + text.length < 2 ^ 32 := by
      have := hroom a
      rw [hf]
      split <;> omega
    obtain ⟨t, hrun, hframe, hcount⟩ := ih (s := respond 0 (s.setFreq f)) hs hroom'
    refine ⟨t, ?_, hframe, fun a => ?_⟩
    · simpa only [List.map_cons, execAll, hexec] using hrun
    · rw [hcount, respond_freq, State.setFreq_freq, hf, List.countP_cons]
      simp only [beq_iff_eq]
      omega

/-- The counts of the numbers below `n` add up to the number of elements below `n`. -/
theorem sum_count_range (n : Nat) (l : List Nat) :
    ((List.range n).map l.count).sum = l.countP fun x => x < n := by
  change ∑ k ∈ Finset.range n, l.count k = _
  rw [← Finset.sum_filter_count_eq_countP]
  refine (Finset.sum_subset (fun k hk => ?_) fun k hk hkl => ?_).symm
  · exact Finset.mem_range.2 (Finset.mem_filter.1 hk).2
  · rw [List.count_eq_zero]
    exact fun hmem => hkl (Finset.mem_filter.2 ⟨List.mem_toFinset.2 hmem, Finset.mem_range.1 hk⟩)

/-- The occurrences of the 256 symbols in a text are its elements that are at most 255. -/
theorem sum_occurrences (text : List InputElem) :
    (allSymbols.map fun a => text.countP fun v => v.toNat == a.toNat).sum =
      text.countP fun v => v.toNat ≤ 255 := by
  have h := sum_count_range 256 (text.map BitVec.toNat)
  rw [← allSymbols_map_toNat, List.map_map, List.countP_map] at h
  simpa only [Function.comp_def, List.count, List.countP_map, Nat.lt_succ_iff] using h

/-- Settles O25: FCLR leaves room for a text this long, and the counts after it start from 0. -/
theorem countsOfAText : Obligations.CountsOfAText := by
  intro text s hs hlen
  obtain ⟨t, hrun, hframe, hcount⟩ := execAll_cnt (text := text)
    (s := respond 0 (s.setFreq (clearedTable 0))) hs fun a => by simpa using hlen
  have hoccurrences (a : Symbol) :
      (readSym t.freq a).toNat = text.countP fun v => v.toNat == a.toNat := by
    simpa using hcount a
  refine ⟨t, by simpa only [execAll, exec_fclr hs] using hrun, hframe, hoccurrences, ?_⟩
  simpa only [hoccurrences] using sum_occurrences text

end Sys2Proof.Machine

namespace Sys2Proof.Machine

/-! ## The priority list

PLAPP and PLINS share the two checks of `addLeaf`; what SORT does follows from what one insertion does. -/

/-- Settles O26: `tree_lt` is decided on naturals, where both clauses are linear. -/
theorem treeOrder : Obligations.TreeOrder := by
  refine ⟨treeLt_iff, fun x => ?_, fun x y z hxy hyz => ?_, fun x y => ?_⟩
  · rw [treeLt_false_iff]
    omega
  · rw [treeLt_iff] at *
    omega
  · rw [treeLt_false_iff, treeLt_false_iff, key_eq_iff]
    omega

/-- Settles O27: the effect of PLCLR is one update of each of the three pieces. -/
theorem clearList : Obligations.ClearList := ⟨rfl, fun _ hs => exec_plclr hs⟩

/-! ### BASE (R114) -/

/-- The number of leaves fits NNODES. -/
theorem nnodes_baseList_toNat (cfg : Config) (f : FreqTable) :
    (BitVec.ofNat 9 (baseList cfg f).length).toNat = (baseList cfg f).length :=
  nnodes_ofNat_toNat ((length_baseList_le cfg f).trans (by decide))

/-- Settles O28: the list is `baseList`, whose entries and order are known. -/
theorem PriorityList.baseList : Obligations.BaseList := by
  refine ⟨rfl, fun s hs => ⟨_, _, exec_base hs, nnodes_baseList_toNat _ _, fun t ht => ?_,
    fun a ha => mem_baseList.2 ⟨a, ha, rfl⟩, baseList_pairwise _ _⟩⟩
  obtain ⟨a, ha, rfl⟩ := mem_baseList.1 ht
  exact ⟨a, rfl, ha⟩

/-! ### PLAPP and PLINS (R116, R117) -/

section
variable {s : State} (i : Instr) (l : List HuffTree)

theorem addLeaf_of_full (hlen : s.pl.length = 256) :
    addLeaf Config.hardware i l s = raise .listFull (encode i) s :=
  if_pos hlen

theorem addLeaf_of_no_node (hlen : s.pl.length ≠ 256) (hnodes : s.nnodes.toNat = 511) :
    addLeaf Config.hardware i l s = raise .arenaFull (encode i) s :=
  (if_neg hlen).trans (if_pos hnodes)

theorem addLeaf_of_room (hlen : s.pl.length ≠ 256) (hnodes : s.nnodes.toNat ≠ 511) :
    addLeaf Config.hardware i l s = respond 0 ((s.setPl l).setNNodes (s.nnodes + 1)) :=
  (if_neg hlen).trans (if_neg hnodes)

end

theorem leafWeight_hardware_toNat (w : BitVec 16) :
    (leafWeight Config.hardware w).toNat = w.toNat := by
  rw [leafWeight_hardware, BitVec.toNat_setWidth_of_le (by decide)]

/-- Settles O29: by the two checks of `addLeaf`. -/
theorem appendLeaf : Obligations.AppendLeaf := by
  refine ⟨fun a w => formatL_toNat _ a w, fun a w s hs => ?_⟩
  rw [exec_plapp hs]
  refine ⟨fun hlen => ?_, fun hlen hnodes => ?_, fun hlen hnodes => ?_⟩
  · rw [addLeaf_of_full _ _ hlen, raise_eq hs]
  · rw [addLeaf_of_no_node _ _ hlen hnodes, raise_eq hs]
  · rw [addLeaf_of_room _ _ hlen hnodes]
    exact ⟨_, _, rfl, leafWeight_hardware_toNat w, nnodes_succ_toNat hnodes⟩

/-- Settles O30: by the two checks of `addLeaf`, and the position of an insertion. -/
theorem insertLeaf : Obligations.InsertLeaf := by
  refine ⟨fun a w => formatL_toNat _ a w, fun a w s hs => ?_⟩
  rw [exec_plins hs]
  refine ⟨fun hlen => ?_, fun hlen hnodes => ?_, fun hlen hnodes => ?_⟩
  · rw [addLeaf_of_full _ _ hlen, raise_eq hs]
  · rw [addLeaf_of_no_node _ _ hlen hnodes, raise_eq hs]
  · obtain ⟨p, hinsert, hposition⟩ :=
      insertTree_position s.pl (.leaf (leafWeight Config.hardware w) a)
    rw [addLeaf_of_room _ _ hlen hnodes, hinsert]
    exact ⟨_, _, p, rfl, leafWeight_hardware_toNat w, nnodes_succ_toNat hnodes, hposition⟩

/-! ### SORT (R112, R113, R118) -/

/-- Settles O31: the list becomes `initialSort` of itself. -/
theorem sortList : Obligations.SortList :=
  ⟨rfl, fun s hs => ⟨_, exec_sort hs, initialSort_eq_foldr s.pl, initialSort_ascending s.pl,
    initialSort_perm s.pl⟩⟩

/-- Each entry is inserted after the entries of its key that followed it in the input (R113 (d)). -/
theorem initialSort_filter_key (l : List HuffTree) (key : Weight × Symbol) :
    (initialSort l).filter (fun x => x.key == key) =
      (l.filter fun x => x.key == key).reverse := by
  induction l with
  | nil => rfl
  | cons x rest ih =>
    rw [initialSort, insertTree_filter_key x key (initialSort_ascending rest), ih]
    by_cases hx : x.key = key <;> simp [hx]

/-- Settles O32: the sorted list is cut to one key. -/
theorem sortReversesEqualKeys : Obligations.SortReversesEqualKeys := by
  intro s t key hs h
  cases (exec_sort hs).symm.trans h
  exact initialSort_filter_key s.pl key

theorem treeLt_of_key_ne {x y : HuffTree} (hkey : x.key ≠ y.key) (h : treeLt y x = false) :
    treeLt x y = true := by
  rw [ne_eq, key_eq_iff] at hkey
  rw [treeLt_false_iff] at h
  rw [treeLt_iff]
  omega

theorem treeLt_asymm {x y : HuffTree} (hxy : treeLt x y = true) : ¬ treeLt y x = true := by
  rw [treeLt_iff] at *
  omega

/-- A sorted list of different keys is strictly increasing. -/
theorem initialSort_increasing {l : List HuffTree} (hkeys : (l.map HuffTree.key).Nodup) :
    (initialSort l).Pairwise fun x y => treeLt x y = true := by
  have hascending := (ascending_iff_pairwise _).1 (initialSort_ascending l)
  have hdistinct := List.pairwise_map.1 ((((initialSort_perm l).map _).nodup_iff).2 hkeys)
  exact hdistinct.imp₂ (fun _ _ => treeLt_of_key_ne) hascending

/-- Settles O33: strictly increasing lists of the same entries are equal. -/
theorem sortOfDistinctKeys : Obligations.SortOfDistinctKeys := by
  intro s s' t t' hs hs' hkeys hperm h h'
  cases (exec_sort hs).symm.trans h
  cases (exec_sort hs').symm.trans h'
  have hincreasing := initialSort_increasing hkeys
  have hincreasing' := initialSort_increasing (((hperm.map _).nodup_iff).1 hkeys)
  have hsame : (initialSort s.pl).Perm (initialSort s'.pl) :=
    (initialSort_perm _).trans (hperm.trans (initialSort_perm _).symm)
  exact ⟨hsame.eq_of_pairwise (fun _ _ _ _ hxy hyx => absurd hyx (treeLt_asymm hxy))
    hincreasing hincreasing', initialSort_perm _, hincreasing⟩

/-! ### Ascending lists (R113 (a), R142) -/

section
variable (cfg : Config) {s : State} (h : Ascending s.pl)
include h

theorem addLeaf_ascending (i : Instr) {l : List HuffTree} (hl : Ascending l) :
    Ascending (addLeaf cfg i l s).pl := by
  rcases addLeaf_cases cfg i l s with ⟨-, he⟩ | ⟨-, -, he⟩ | ⟨-, -, he⟩ <;> rw [he]
  · exact h
  · exact h
  · exact hl

theorem coalesceStep_ascending : Ascending (coalesceStep cfg s).pl := by
  rcases coalesceStep_cases cfg s with
    ⟨-, he⟩ | ⟨a, b, rest, hfront, ⟨-, he⟩ | ⟨-, -, he⟩ | ⟨-, -, he⟩⟩ <;> rw [he]
  · exact h
  · exact h
  · exact h
  · rw [hfront] at h
    exact coalesceOnce_ascending h

theorem coalesceList_ascending : Ascending (coalesceList cfg s).pl := by
  rcases coalesceList_cases cfg s with ⟨-, he⟩ | ⟨-, -, -, he⟩ | ⟨-, -, he⟩ <;> rw [he]
  · exact h
  · exact h
  · exact coalesceAll_ascending h

end

/-- Settles O34: a refused command changes no list, and each of the four effects keeps the order. -/
theorem ascendingKept : Obligations.AscendingKept := by
  intro i s t hi hascending h
  by_cases hs : s.fault = none
  · obtain rfl | rfl | rfl | ⟨a, w, rfl⟩ := hi
    · cases (exec_sort hs).symm.trans h
      exact initialSort_ascending s.pl
    · cases (exec_co1 hs).symm.trans h
      exact coalesceStep_ascending _ hascending
    · cases (exec_coall hs).symm.trans h
      exact coalesceList_ascending _ hascending
    · cases (exec_plins hs a w).symm.trans h
      exact addLeaf_ascending _ hascending _ (insertTree_ascending _ hascending)
  · have hcontrol : i.isControl = false := by obtain rfl | rfl | rfl | ⟨a, w, rfl⟩ := hi <;> rfl
    cases (exec_halted hs hcontrol).symm.trans h
    exact hascending

/-! ### Reads (R119 to R122) -/

section
variable (s : State)

@[simp] theorem listInfo_len : s.listInfo.extractLsb' 0 9 = s.len :=
  BitVec.extractLsb'_append_eq_right

/-- Above LEN, LISTINFO holds zeros, then NNODES, then zeros (R24). -/
theorem listInfo_above_len (lo len : Nat) :
    s.listInfo.extractLsb' (9 + lo) len = (0#7 ++ s.nnodes ++ 0#7).extractLsb' lo len :=
  (BitVec.extractLsb'_append_eq_of_le (by omega)).trans (by rw [Nat.add_sub_cancel_left])

@[simp] theorem listInfo_zeros : s.listInfo.extractLsb' 9 7 = 0 :=
  (listInfo_above_len s 0 7).trans BitVec.extractLsb'_append_eq_right

@[simp] theorem listInfo_nnodes : s.listInfo.extractLsb' 16 9 = s.nnodes := calc
  _ = (0#7 ++ s.nnodes).extractLsb' 0 9 :=
    (listInfo_above_len s 7 9).trans (BitVec.extractLsb'_append_eq_of_le (by decide))
  _ = s.nnodes := BitVec.extractLsb'_append_eq_right

@[simp] theorem listInfo_high_zeros : s.listInfo.extractLsb' 25 7 = 0 := calc
  _ = (0#7 ++ s.nnodes).extractLsb' 9 7 :=
    (listInfo_above_len s 16 7).trans (BitVec.extractLsb'_append_eq_of_le (by decide))
  _ = 0 := BitVec.extractLsb'_append_eq_left

end

/-- Settles O35: the word PLLEN answers is read field by field. -/
theorem listInfo : Obligations.ListInfo := by
  refine ⟨rfl, fun s hs hlen => ⟨s.listInfo, exec_pllen hs, ?_, listInfo_zeros s,
    listInfo_nnodes s, listInfo_high_zeros s⟩⟩
  rw [listInfo_len]
  exact nnodes_ofNat_toNat (hlen.trans (by decide))

section
variable {s : State} {k j : ListIndex} (i : Instr) (d : HuffTree → Word)

theorem readEntry_of_lt (h : k.toNat < s.pl.length) :
    readEntry i k d s = respond (d s.pl[k.toNat]) s := by
  rcases readEntry_cases i k d s with ⟨hbeyond, -⟩ | ⟨_, he⟩
  · omega
  · exact he

theorem readEntry_of_le (h : s.pl.length ≤ k.toNat) :
    readEntry i k d s = raise .index (encode i) s := by
  rcases readEntry_cases i k d s with ⟨-, he⟩ | ⟨hlt, -⟩
  · exact he
  · omega

theorem compareEntries_of_lt (hk : k.toNat < s.pl.length) (hj : j.toNat < s.pl.length) :
    compareEntries k j s = respond (boolWord (treeLt s.pl[k.toNat] s.pl[j.toNat])) s := by
  rcases compareEntries_cases k j s with ⟨hbeyond, -⟩ | ⟨_, _, he⟩
  · omega
  · exact he

theorem compareEntries_of_le (h : s.pl.length ≤ k.toNat ∨ s.pl.length ≤ j.toNat) :
    compareEntries k j s = raise .index (encode (.pllt k j)) s := by
  rcases compareEntries_cases k j s with ⟨-, he⟩ | ⟨hk, hj, -⟩
  · exact he
  · omega

end

section
variable (t : HuffTree)

@[simp] theorem kindAndRep_rep : (kindAndRep t).extractLsb' 0 8 = t.rep :=
  BitVec.extractLsb'_append_eq_right

@[simp] theorem kindAndRep_kind : (kindAndRep t).getLsbD 8 = t.isNode := calc
  _ = (0#23 ++ BitVec.ofBool t.isNode).getLsbD 0 := BitVec.getLsbD_append
  _ = (BitVec.ofBool t.isNode).getLsbD 0 := BitVec.getLsbD_append
  _ = t.isNode := BitVec.getLsbD_ofBool _ 0

@[simp] theorem kindAndRep_zeros : (kindAndRep t).extractLsb' 9 23 = 0 := calc
  _ = (0#23 ++ BitVec.ofBool t.isNode).extractLsb' 1 23 :=
    BitVec.extractLsb'_append_eq_of_le (by decide)
  _ = 0 := BitVec.extractLsb'_append_eq_left

theorem isNode_iff : t.isNode = true ↔ ∃ w a l r, t = .node w a l r := by
  cases t <;> simp [HuffTree.isNode]

end

/-- Settles O36: by whether the entry exists; the word of PLRDK is read field by field. -/
theorem PriorityList.readEntry : Obligations.ReadEntry := by
  refine ⟨fun k => ⟨formatI_toNat _ k, formatI_toNat _ k⟩, fun k s hs => ⟨fun hk => ?_, ?_⟩⟩
  · rw [exec_plrdw hs, exec_plrdk hs, readEntry_of_lt _ _ hk, readEntry_of_lt _ _ hk]
    exact ⟨rfl, _, rfl, kindAndRep_rep _, by rw [kindAndRep_kind, isNode_iff], kindAndRep_zeros _⟩
  · rintro hk i (rfl | rfl)
    · rw [exec_plrdw hs, readEntry_of_le _ _ hk, raise_eq hs]
    · rw [exec_plrdk hs, readEntry_of_le _ _ hk, raise_eq hs]

theorem boolWord_cases (b : Bool) : boolWord b = 0 ∨ boolWord b = 1 := by
  cases b <;> decide

theorem boolWord_eq_one_iff (b : Bool) : boolWord b = 1 ↔ b = true := by
  cases b <;> decide

/-- Settles O37: by whether both entries exist. -/
theorem PriorityList.compareEntries : Obligations.CompareEntries := by
  refine ⟨fun i j => formatJ_toNat _ i j, fun i j s hs => ?_⟩
  rw [exec_pllt hs]
  refine ⟨fun hi hj => ?_, fun h => ?_⟩
  · rw [compareEntries_of_lt hi hj]
    exact ⟨_, rfl, boolWord_cases _, (boolWord_eq_one_iff _).trans (treeLt_iff _ _)⟩
  · rw [compareEntries_of_le h, raise_eq hs]

/-! ### BASE and BUILD in any configuration (R114, R146) -/

theorem getElem?_allSymbols (a : Symbol) : allSymbols[a.toNat]? = some a := by
  have ha : a.toNat < 256 := a.isLt
  simp [allSymbols, ha]

/-- With `ZERO_LEAVES` = 1 the leaf of a symbol stands at the symbol's number. -/
theorem getElem?_baseList_of_zeroLeaves {cfg : Config} (h : cfg.zeroLeaves = true) (f : FreqTable)
    (a : Symbol) : (baseList cfg f)[a.toNat]? = some (.leaf (readSym f a) a) := by
  simp [baseList, h, getElem?_allSymbols]

/-- Coalescing leaves at most one tree, which is the one latched (R144, R145). -/
theorem toList_head?_coalesceAll (l : List HuffTree) :
    (coalesceAll l).head?.toList = coalesceAll l := by
  rw [← List.take_one, List.take_of_length_le (by rw [length_coalesceAll]; omega)]

theorem head?_coalesceAll_eq_none_iff (l : List HuffTree) :
    (coalesceAll l).head? = none ↔ l = [] := by
  have hlen := length_coalesceAll l
  rw [List.head?_eq_none_iff, ← List.length_eq_zero_iff, ← List.length_eq_zero_iff]
  omega

theorem buildTree_of_overflow {cfg : Config} {s : State} (hlen : 2 ≤ (baseList cfg s.freq).length)
    (hweight : 2 ^ cfg.w ≤ totalWeight (baseList cfg s.freq)) :
    buildTree cfg s = raise .weightOverflow (encode .build) s :=
  if_pos ⟨hlen, hweight⟩

/-- Without an overflow BUILD leaves one tree, in PL and latched, or none (R146). -/
theorem buildTree_of_exact {cfg : Config} {s : State} (h : (baseList cfg s.freq).length < 2 ∨
      totalWeight (baseList cfg s.freq) < 2 ^ cfg.w) :
    buildTree cfg s = { s with
      pl := (coalesceAll (initialSort (baseList cfg s.freq))).head?.toList
      tree := (coalesceAll (initialSort (baseList cfg s.freq))).head?
      nnodes := BitVec.ofNat 9
        ((baseList cfg s.freq).length + ((baseList cfg s.freq).length - 1))
      rsp := s.rsp ++ [⟨.ok, 0⟩] } := by
  rcases buildTree_cases cfg s with ⟨hlen, hweight, -⟩ | ⟨-, he⟩
  · omega
  · rw [he, toList_head?_coalesceAll]
    rfl

/-- Settles O60: BASE and BUILD make the same list of leaves; BUILD by whether it overflows. -/
theorem configuredBaseAndBuild : Obligations.ConfiguredBaseAndBuild := by
  refine ⟨⟨rfl, rfl⟩, fun cfg s hs => ?_⟩
  have hlen := length_baseList_le cfg s.freq
  refine ⟨baseList cfg s.freq, _,
    BitVec.ofNat 9 ((baseList cfg s.freq).length + ((baseList cfg s.freq).length - 1)),
    fun t => ?_, baseList_pairwise _ _, fun hz => getElem?_baseList_of_zeroLeaves hz _,
    execIn_base hs cfg, nnodes_baseList_toNat _ _, fun h2 hover => ?_, fun hexact => ?_⟩
  · rw [mem_baseListIn]
    simp only [and_comm]
  · rw [execIn_build hs, buildTree_of_overflow h2 hover, raise_eq hs]
  · refine ⟨_, (toList_head?_coalesceAll _).symm, ?_, nnodes_ofNat_toNat (by omega), ?_⟩
    · rw [head?_coalesceAll_eq_none_iff, ← List.length_eq_zero_iff, length_initialSort,
        List.length_eq_zero_iff]
    · rw [execIn_build hs, buildTree_of_exact hexact]

end Sys2Proof.Machine

namespace Sys2Proof.Machine

/-! ## The tree builder

CO1 and COALL each by their checks; BUILD coalesces the sorted base list, so what COALL latches is
known once for both. -/

/-! ### CO1 (R140 to R143) -/

section
variable {cfg : Config} {s : State}

theorem coalesceStep_of_short (hlen : s.pl.length < 2) :
    coalesceStep cfg s = raise .underflow (encode .co1) s := by
  rcases coalesceStep_cases cfg s with ⟨-, he⟩ | ⟨a, b, rest, hfront, -⟩
  · exact he
  · simp [hfront] at hlen

theorem coalesceStep_of_no_node (hlen : 2 ≤ s.pl.length) (hnodes : s.nnodes.toNat = cfg.nodeCap) :
    coalesceStep cfg s = raise .arenaFull (encode .co1) s := by
  rcases coalesceStep_cases cfg s with
    ⟨hshort, -⟩ | ⟨a, b, rest, -, ⟨-, he⟩ | ⟨hfree, -⟩ | ⟨hfree, -⟩⟩
  · omega
  · exact he
  · exact absurd hnodes hfree
  · exact absurd hnodes hfree

/-- With two entries and a node left, only the front weights decide. -/
theorem coalesceStep_of_front {a b : HuffTree} {rest : List HuffTree} (hfront : s.pl = a :: b :: rest)
    (hnodes : s.nnodes.toNat ≠ cfg.nodeCap) :
    (2 ^ cfg.w ≤ a.weight.toNat + b.weight.toNat →
      coalesceStep cfg s = raise .weightOverflow (encode .co1) s) ∧
    (a.weight.toNat + b.weight.toNat < 2 ^ cfg.w → coalesceStep cfg s =
      respond 0 ((s.setPl (insertTree rest (mergeTrees a b))).setNNodes (s.nnodes + 1))) := by
  rcases coalesceStep_cases cfg s with ⟨hshort, -⟩ | ⟨a', b', rest', hfront', hchecks⟩
  · simp [hfront] at hshort
  · rw [hfront] at hfront'
    cases hfront'
    rcases hchecks with ⟨hfull, -⟩ | ⟨-, hover, he⟩ | ⟨-, hexact, he⟩
    · exact absurd hfull hnodes
    · exact ⟨fun _ => he, fun hlt => by omega⟩
    · exact ⟨fun hle => by omega, fun _ => he⟩

end

/-- Settles O38: by the three checks; the merged Node is exact below the weight bound. -/
theorem TreeBuilder.coalesceOnce : Obligations.CoalesceOnce := by
  refine ⟨rfl, fun s hs => ?_⟩
  rw [exec_co1 hs]
  refine ⟨fun hshort => ?_, fun hlen hnodes => ?_, fun a b rest hfront hnodes => ?_⟩
  · rw [coalesceStep_of_short hshort, raise_eq hs]
  · rw [coalesceStep_of_no_node hlen hnodes, raise_eq hs]
  · obtain ⟨hover, hexact⟩ := coalesceStep_of_front (cfg := Config.hardware) hfront hnodes
    refine ⟨fun hle => ?_, fun hlt => ?_⟩
    · rw [hover hle, raise_eq hs]
    · rw [hexact hlt]
      exact ⟨_, _, _, rfl, mergeTrees_weight_toNat hlt, minSymbol_toNat _ _, nnodes_succ_toNat hnodes⟩

/-! ### COALL (R144, R145, R147) -/

section
variable {cfg : Config} {s : State}

theorem coalesceList_of_no_node (hnodes : cfg.nodeCap < s.nnodes.toNat + (s.pl.length - 1)) :
    coalesceList cfg s = raise .arenaFull (encode .coall) s :=
  if_pos hnodes

theorem coalesceList_of_overflow (hnodes : s.nnodes.toNat + (s.pl.length - 1) ≤ cfg.nodeCap)
    (hlen : 2 ≤ s.pl.length) (hweight : 2 ^ cfg.w ≤ totalWeight s.pl) :
    coalesceList cfg s = raise .weightOverflow (encode .coall) s :=
  (if_neg (Nat.not_lt.2 hnodes)).trans (if_pos ⟨hlen, hweight⟩)

/-- When both checks pass, COALL leaves the coalesced list and latches its entry. -/
theorem coalesceList_of_exact (hnodes : s.nnodes.toNat + (s.pl.length - 1) ≤ cfg.nodeCap)
    (hexact : s.pl.length < 2 ∨ totalWeight s.pl < 2 ^ cfg.w) :
    coalesceList cfg s = { s with
      pl := coalesceAll s.pl
      tree := (coalesceAll s.pl).head?
      nnodes := BitVec.ofNat 9 (s.nnodes.toNat + (s.pl.length - 1))
      rsp := s.rsp ++ [⟨.ok, 0⟩] } := by
  rcases coalesceList_cases cfg s with ⟨hfull, -⟩ | ⟨-, hlen, hweight, -⟩ | ⟨-, -, he⟩
  · omega
  · omega
  · exact he

end

theorem coalesceAll_eq_nil_iff (l : List HuffTree) : coalesceAll l = [] ↔ l = [] :=
  List.head?_eq_none_iff.symm.trans (head?_coalesceAll_eq_none_iff l)

/-- Settles O39: by the two checks; the list is the iterate that `coalesce_all` is. -/
theorem TreeBuilder.coalesceAll : Obligations.CoalesceAll := by
  refine ⟨rfl, fun s hs => ?_⟩
  rw [exec_coall hs]
  refine ⟨fun hfull => ?_, fun hnodes => ⟨fun hlen hweight => ?_, fun hexact => ?_⟩⟩
  · rw [coalesceList_of_no_node hfull, raise_eq hs]
  · rw [coalesceList_of_overflow hnodes hlen hweight, raise_eq hs]
  · rw [coalesceList_of_exact hnodes hexact]
    exact ⟨_, _, rfl, coalesceAll_eq_iterate s.pl, coalesceAll_eq_nil_iff s.pl,
      length_coalesceAll s.pl ▸ Nat.min_le_right _ _, nnodes_ofNat_toNat hnodes⟩

section
variable {l : List HuffTree} {r : HuffTree} (h : (coalesceAll l).head? = some r)
include h

theorem coalesceAll_eq_singleton : coalesceAll l = [r] := by
  rw [← toList_head?_coalesceAll, h, Option.toList_some]

/-- The latched tree weighs the sum of the entries (R147 (a)). -/
theorem weight_of_coalesced (hexact : l.length < 2 ∨ totalWeight l < 2 ^ 32) :
    r.weight.toNat = totalWeight l := by
  have hsum : totalWeight (coalesceAll l) = totalWeight l := by
    rcases hexact with hshort | hweight
    · rw [coalesceAll_of_length_le (by omega)]
    · exact (coalesceAll_totals hweight).1
  simpa [coalesceAll_eq_singleton h, totalWeight] using hsum

/-- The latched tree has the leaves of the entries (R147 (c)). -/
theorem leaves_of_coalesced : (r.leaves.map fun x => (x.1, x.2.1)).Perm
    (l.flatMap fun t => t.leaves.map fun x => (x.1, x.2.1)) := by
  simpa [coalesceAll_eq_singleton h] using coalesceAll_leaves l

/-- The leaves of the latched tree carry the symbols of the entries (R147 (c)). -/
theorem symbols_of_coalesced (hweight : totalWeight l < 2 ^ 32) :
    r.symbols.Perm (l.flatMap HuffTree.symbols) := by
  simpa [coalesceAll_eq_singleton h] using (coalesceAll_totals hweight).2

end

/-- Settles O40: a COALL that latches no fault passed both checks. -/
theorem coalescedTree : Obligations.CoalescedTree := by
  intro s t r hs h ht hr
  cases (exec_coall hs).symm.trans h
  rcases coalesceList_cases Config.hardware s with ⟨-, he⟩ | ⟨-, -, -, he⟩ | ⟨-, hexact, he⟩
  · simp [he, hs] at ht
  · simp [he, hs] at ht
  · rw [he] at hr
    exact ⟨weight_of_coalesced hr hexact, leaves_of_coalesced hr⟩

/-! ### BUILD (R146) -/

theorem totalWeight_initialSort (l : List HuffTree) : totalWeight (initialSort l) = totalWeight l :=
  totalWeight_perm (initialSort_perm l)

/-- The state after BASE and SORT, when no fault is latched. -/
def afterBaseSort (s : State) : State :=
  respond 0 ((loadBaseList Config.hardware s).setPl (initialSort (baseList Config.hardware s.freq)))

section
variable {s : State}

@[simp] theorem afterBaseSort_pl :
    (afterBaseSort s).pl = initialSort (baseList Config.hardware s.freq) := rfl

@[simp] theorem afterBaseSort_nnodes_toNat :
    (afterBaseSort s).nnodes.toNat = (baseList Config.hardware s.freq).length :=
  nnodes_baseList_toNat _ _

theorem execAll_base_sort_coall (hs : s.fault = none) :
    execAll [.base, .sort, .coall] s = .next (coalesceList Config.hardware (afterBaseSort s)) := by
  have hbase : (loadBaseList Config.hardware s).fault = none := hs
  have hsort : exec .sort (loadBaseList Config.hardware s) = .next (afterBaseSort s) :=
    exec_sort hbase
  have hcoall := exec_coall (s := afterBaseSort s) hs
  simp only [execAll, exec_base hs, hsort, hcoall]

/-- After BASE the merges of COALL never run out of nodes: 256 leaves and 255 merges. -/
theorem afterBaseSort_nodes_le :
    (afterBaseSort s).nnodes.toNat + ((afterBaseSort s).pl.length - 1) ≤ 511 := by
  have hlen := length_baseList_le Config.hardware s.freq
  rw [afterBaseSort_nnodes_toNat, afterBaseSort_pl, length_initialSort]
  omega

/-- BUILD leaves what BASE, SORT and COALL leave, with one response instead of three. -/
theorem buildTree_eq_coalesceList (hexact : (baseList Config.hardware s.freq).length < 2 ∨
      totalWeight (baseList Config.hardware s.freq) < 2 ^ 32) :
    buildTree Config.hardware s =
      { coalesceList Config.hardware (afterBaseSort s) with rsp := s.rsp ++ [⟨.ok, 0⟩] } := by
  have hexact' : (afterBaseSort s).pl.length < 2 ∨ totalWeight (afterBaseSort s).pl < 2 ^ 32 := by
    rwa [afterBaseSort_pl, length_initialSort, totalWeight_initialSort]
  rw [buildTree_of_exact hexact, coalesceList_of_exact afterBaseSort_nodes_le hexact',
    toList_head?_coalesceAll, afterBaseSort_nnodes_toNat, afterBaseSort_pl, length_initialSort]
  rfl

end

/-- Settles O41: after BASE and SORT the list has the length and the weight BUILD checks. -/
theorem buildIsBaseSortCoall : Obligations.BuildIsBaseSortCoall := by
  refine ⟨rfl, fun s hs => ⟨_, _, exec_build hs, execAll_base_sort_coall hs, ?_⟩⟩
  have hfault : (afterBaseSort s).fault = none := hs
  rcases buildTree_cases Config.hardware s with ⟨hlen, hweight, he⟩ | ⟨hexact, -⟩
  · have hcoall := coalesceList_of_overflow (cfg := Config.hardware) (s := afterBaseSort s)
      afterBaseSort_nodes_le (by simpa using hlen) (by simpa [totalWeight_initialSort] using hweight)
    rw [he, hcoall]
    simp [hs, hfault, SameData]
  · have he := buildTree_eq_coalesceList hexact
    refine ⟨fun _ => he, fun hu => absurd ?_ hu⟩
    have hrun : (buildTree Config.hardware s).fault = none := by rw [buildTree_of_exact hexact, hs]
    rwa [he] at hrun

theorem baseList_eq_nil_iff (f : FreqTable) :
    baseList Config.hardware f = [] ↔ ∀ a, readSym f a = 0 := by
  constructor
  · intro h a
    by_contra ha
    exact List.not_mem_nil (h ▸ mem_baseList.2 ⟨a, ha, rfl⟩)
  · refine fun h => List.eq_nil_iff_forall_not_mem.2 fun t ht => ?_
    obtain ⟨a, ha, -⟩ := mem_baseList.1 ht
    exact ha (h a)

/-- The tree BUILD latches for a frequency table, none when nothing is counted (R146). -/
def builtTree (f : FreqTable) : Option HuffTree :=
  (coalesceAll (initialSort (baseList Config.hardware f))).head?

theorem builtTree_eq_none_iff (f : FreqTable) : builtTree f = none ↔ ∀ a, readSym f a = 0 := by
  rw [builtTree, head?_coalesceAll_eq_none_iff, ← List.length_eq_zero_iff, length_initialSort,
    List.length_eq_zero_iff, baseList_eq_nil_iff]

/-- The nodes of the built tree: its leaves, and one for each merge (R20, R146). -/
theorem size_builtTree (f : FreqTable) : ((builtTree f).map HuffTree.size).getD 0 =
    (baseList Config.hardware f).length + ((baseList Config.hardware f).length - 1) := calc
  _ = totalSize (builtTree f).toList := by cases builtTree f <;> simp [totalSize]
  _ = totalSize (coalesceAll (initialSort (baseList Config.hardware f))) := by
    rw [builtTree, toList_head?_coalesceAll]
  _ = _ := by
    rw [totalSize_coalesceAll, totalSize_perm (initialSort_perm _), totalSize_baseList,
      length_initialSort]

section
variable {f : FreqTable} {t : HuffTree} (ht : builtTree f = some t)
  (hweight : (allSymbols.map fun a => (readSym f a).toNat).sum < 2 ^ 32)
include ht hweight

theorem builtTree_ok : t.ok = true := by
  rw [← totalWeight_baseList Config.hardware, ← totalWeight_initialSort] at hweight
  refine coalesceAll_ok (fun x hx => ?_) hweight t (List.mem_of_mem_head? ht)
  exact baseList_ok _ f x ((initialSort_perm _).mem_iff.1 hx)

/-- The built tree weighs the sum of all counts (R147 (a)). -/
theorem builtTree_weight :
    t.weight.toNat = (allSymbols.map fun a => (readSym f a).toNat).sum := by
  rw [← totalWeight_baseList Config.hardware, ← totalWeight_initialSort] at hweight ⊢
  exact weight_of_coalesced ht (.inr hweight)

/-- The leaves of the built tree carry the counted symbols, each once (R147 (c)). -/
theorem builtTree_symbols : t.symbols.Perm (allSymbols.filter fun a => readSym f a != 0) := by
  rw [← totalWeight_baseList Config.hardware, ← totalWeight_initialSort] at hweight
  have hsymbols : (baseList Config.hardware f).flatMap HuffTree.symbols =
      allSymbols.filter fun a => readSym f a != 0 := baseList_symbols Config.hardware f
  rw [← hsymbols]
  exact (symbols_of_coalesced ht hweight).trans ((initialSort_perm _).flatMap_right _)

end

/-- Settles O42: below the bound BUILD latches `builtTree`, whose size, weight and symbols are known. -/
theorem TreeBuilder.buildTree : Obligations.BuildTree := by
  intro s hs hweight
  have hlen := length_baseList_le Config.hardware s.freq
  have hexact := (totalWeight_baseList Config.hardware s.freq).trans_lt hweight
  refine ⟨builtTree s.freq, _, (exec_build hs).trans (congrArg _ (buildTree_of_exact (.inr hexact))),
    builtTree_eq_none_iff _, ?_, fun t ht => ?_⟩
  · rw [size_builtTree]
    exact nnodes_ofNat_toNat (by omega)
  · have hsymbols := builtTree_symbols ht hweight
    refine ⟨builtTree_ok ht hweight, builtTree_weight ht hweight,
      hsymbols.nodup_iff.2 (allSymbols_nodup.filter _), fun a => ?_⟩
    rw [hsymbols.mem_iff]
    simp

end Sys2Proof.Machine

namespace Sys2Proof.Machine

/-! ## The code table

What `codeTableOf` makes of one tree is known from the laws of the walk (R160); CTBLD writes it, and
CTLEN and CTRD read it. -/

/-- Settles O44: the table is the walk over a cleared one, whose entry `readSym_walk` gives. -/
theorem buildCodeTable : Obligations.BuildCodeTable := by
  refine ⟨rfl, fun s hs => ⟨codeTableOf s.tree, exec_ctbld hs, fun hnone a => ?_, fun t ht a => ?_⟩⟩
  · rw [hnone]
    exact readSym_clearedTable [] a
  · rw [ht, codeTableOf, readSym_walk, readSym_clearedTable]

section
variable {r : HuffTree} (hnd : r.symbols.Nodup)
include hnd

/-- A codeword is as long as its leaf is deep (R164 (a)). -/
theorem length_codeword_of_leaf {x : Weight × Symbol × Nat} (hx : x ∈ r.leaves) :
    (readSym (codeTableOf (some r)) x.2.1).length = x.2.2 := by
  have hmem : x.2 ∈ (r.pathsFrom []).map fun y => (y.1, y.2.length) := by
    rw [pathsFrom_lengths]
    exact List.mem_map_of_mem hx
  obtain ⟨y, hy, hyx⟩ := List.mem_map.1 hmem
  rw [← hyx, readSym_codeTable_of_path hnd hy]

/-- The codewords of the leaves are the paths, which meet the Kraft equality (R164 (d)). -/
theorem codewords_kraft :
    (r.symbols.map fun a => ((1 : ℚ) / 2) ^ (readSym (codeTableOf (some r)) a).length).sum = 1 := calc
  _ = ((r.pathsFrom []).map fun x => ((1 : ℚ) / 2) ^ x.2.length).sum := by
    rw [← pathsFrom_symbols r [], List.map_map]
    refine congrArg List.sum (List.map_congr_left fun x hx => ?_)
    rw [Function.comp, readSym_codeTable_of_path hnd hx]
  _ = ((1 : ℚ) / 2) ^ ([] : BitString).length := pathsFrom_kraft r []
  _ = 1 := pow_zero _

end

/-- Settles O46: the entry of a leaf's symbol is the path of the leaf. -/
theorem kraftEquality : Obligations.KraftEquality := by
  intro s t r hs hr hnd h
  rw [exec_ctbld hs, hr] at h
  cases h
  exact ⟨fun x hx => length_codeword_of_leaf hnd hx, codewords_kraft hnd⟩

/-! ### BUILD, then CTBLD -/

/-- A command that can be refused does not clear a latched fault (R199). -/
theorem fault_eq_none_of_exec {i : Instr} {s t : State} (hi : i.isControl = false)
    (h : exec i s = .next t) (ht : t.fault = none) : s.fault = none := by
  by_contra hs
  cases (exec_halted hs hi).symm.trans h
  exact hs ht

/-- When two symbols are counted and BUILD does not fault, the counts sum to less than `2^32` (R146). -/
theorem counts_lt_of_build {s t : State} {a b : Symbol} (hs : s.fault = none)
    (h : exec .build s = .next t) (ht : t.fault = none) (hab : a ≠ b) (ha : readSym s.freq a ≠ 0)
    (hb : readSym s.freq b ≠ 0) : (allSymbols.map fun a => (readSym s.freq a).toNat).sum < 2 ^ 32 := by
  have hlen := (two_le_length_baseList (cfg := Config.hardware)).2 ⟨a, b, hab, .inr ⟨ha, hb⟩⟩
  cases (exec_build hs).symm.trans h
  rw [← totalWeight_baseList Config.hardware]
  rcases buildTree_cases Config.hardware s with ⟨-, -, he⟩ | ⟨hexact, -⟩
  · simp [he, hs] at ht
  · exact hexact.resolve_left (Nat.not_lt.2 hlen)

/-- Settles O47: the leaves are the counted symbols; an empty codeword of one would begin the
codeword of another, which O45 excludes. -/
theorem countedSymbolsHaveCodes : Obligations.CountedSymbolsHaveCodes := by
  intro s t a b hs h ht hab ha hb x
  obtain ⟨u, hbuild⟩ := exec_total .build s
  obtain ⟨v, hctbld⟩ := exec_total .ctbld u
  simp only [execAll, hbuild, hctbld] at h
  cases h
  have hu := fault_eq_none_of_exec rfl hctbld ht
  obtain ⟨root, n, hbuilt, hnone, -, htree⟩ :=
    TreeBuilder.buildTree s hs (counts_lt_of_build hs hbuild hu hab ha hb)
  cases hbuilt.symm.trans hbuild
  cases root with
  | none => exact absurd (hnone.1 rfl a) ha
  | some r =>
    obtain ⟨-, -, hnd, hcounted⟩ := htree r rfl
    rw [← hcounted] at ha hb ⊢
    constructor
    · intro hcode
      by_contra hx
      cases (exec_ctbld hu).symm.trans hctbld
      exact hcode (readSym_codeTable_of_not_mem hx)
    · intro hx hempty
      obtain ⟨y, hy, hxy⟩ : ∃ y ∈ r.symbols, x ≠ y := by
        by_cases hxa : x = a
        · exact ⟨b, hb, hxa ▸ hab⟩
        · exact ⟨a, ha, hxa⟩
      refine prefixFree _ t r hu rfl hnd hctbld x hx y hy hxy ?_
      rw [hempty]
      exact List.nil_prefix

/-! ### CTLEN and CTRD -/

/-- The data of CTLEN is the length, when it fits a byte (R162). -/
theorem lengthWord_toNat {b : BitString} (h : b.length ≤ 255) : (lengthWord b).toNat = b.length := by
  rw [lengthWord, append_toNat, (physicalEntry b h).1]
  simp

/-- Data bit `31 − k` of CTRD is element `32c + k` of the codeword, 0 beyond its length (R163). -/
theorem chunkOf_getLsbD (b : BitString) (c : BitVec 3) {k : Nat} (hk : k < 32) :
    (chunkOf b c).getLsbD (31 - k) = (b[32 * c.toNat + k]? == some true) := by
  have hpos : 31 - k < 32 := by omega
  have hpos' : 31 - (31 - k) = k := by omega
  simp only [chunkOf, BitVec.getLsbD_ofFnLE, dif_pos hpos, hpos', List.getD_eq_getElem?_getD]
  rcases b[32 * c.toNat + k]? with _ | _ | _ <;> rfl

/-- Settles O48: each command responds with a word of the entry and writes nothing. -/
theorem readCodeword : Obligations.ReadCodeword :=
  ⟨fun a c => ⟨formatS_toNat _ a, formatC_toNat _ a c⟩, fun a c s hs hlen =>
    ⟨lengthWord (readSym s.ct a), chunkOf (readSym s.ct a) c, exec_ctlen hs a, exec_ctrd hs a c,
      lengthWord_toNat hlen, fun _ hk => chunkOf_getLsbD _ c hk⟩⟩

end Sys2Proof.Machine

namespace Sys2Proof.Machine

/-! ## The bit packer

The bits appended since the pending bits were last none form one stream (`Streamed`): its whole groups
of eight have left as bytes and the rest is pending. `append_bits` continues the stream, FLUSH ends it,
and no other command of a run touches it. -/

/-! ### ENC and BITS -/

/-- The code of an element that is at most 255 is the entry of its low byte (R165). -/
theorem codeOf_eq (ct : CodeTable) (v : InputElem) :
    codeOf ct v = if v.toNat ≤ 255 then readSym ct (v.extractLsb' 0 8) else [] := by
  unfold codeOf symbolOf
  by_cases hv : v.toNat ≤ 255
  · rw [if_pos hv, if_pos hv, BitVec.setWidth_eq_extractLsb' (by decide)]
  · rw [if_neg hv, if_neg hv]

theorem appendBits_appended {s : State} (hacc : s.acc.toNat < 2 ^ s.nb.toNat) (b : BitString) :
    Appended s b (appendBits s b) := by
  obtain ⟨hout, hpending, hbound⟩ := appendBits_spec b s
  exact ⟨hout, hpending, hbound hacc, appendBits_frame b s⟩

theorem respond_appendBits (d : Word) (s : State) (b : BitString) :
    respond d (appendBits s b) = { appendBits s b with rsp := s.rsp ++ [⟨.ok, d⟩] } := by
  obtain ⟨-, -, -, -, -, -, hrsp, -⟩ := appendBits_fields s b
  rw [respond_eq, hrsp]

/-- Settles O50: ENC appends the code of its element, and a code is at most 255 bits long. -/
theorem encodeElement : Obligations.EncodeElement := by
  refine ⟨fun v => formatV_toNat _ v, fun v s hs hacc hcodes => ?_⟩
  have hlen := length_out_appendBits_le s (length_codeOf_le hcodes v)
  refine ⟨appendBits s (codeOf s.ct v), ?_, ?_, hlen⟩
  · rw [exec_enc hs, respond_appendBits]
  · rw [← codeOf_eq]
    exact appendBits_appended hacc _

theorem eq_rawBits {n : BitVec 5} {pat : BitVec 16} {b : BitString} (hlen : b.length = n.toNat)
    (hbits : ∀ k (h : k < b.length), b[k] = pat.getLsbD (n.toNat - 1 - k)) : b = rawBits n pat :=
  List.ext_getElem (by rw [hlen, length_rawBits]) fun k hk _ => by simp [hbits k hk, rawBits]

/-- BITS of at most 16 bits does not fault (R177). -/
theorem appendRaw_of_le {n : BitVec 5} (hn : n.toNat ≤ 16) (pat : BitVec 16) (s : State) :
    appendRaw Config.hardware n pat s = respond 0 (appendBits s (rawBits n pat)) :=
  if_neg (Nat.not_lt.2 hn)

/-- Settles O51: BITS appends the raw bits of its operands; with at most 7 pending bits, 16 more make
at most two bytes. -/
theorem appendRawBits : Obligations.AppendRawBits := by
  refine ⟨fun n pat => formatB_toNat _ n pat, fun n pat b s hs hacc hn hlen hbits => ?_⟩
  refine ⟨appendBits s b, ?_, appendBits_appended hacc b, ?_⟩
  · rw [exec_bits hs, appendRaw_of_le hn, ← eq_rawBits hlen hbits, respond_appendBits]
  · have hcount := (appendBits_counts b s).2
    have hnb := nb_toNat_lt s
    omega

/-! ### FLUSH and BPCLR -/

/-- Settles O52: FLUSH packs the pending bits, which are fewer than eight. -/
theorem flushAndDrop : Obligations.FlushAndDrop := by
  refine ⟨⟨rfl, rfl⟩, fun s hs => ⟨?_, ?_, exec_bpclr hs⟩⟩
  · rw [exec_flush hs, flushPending_eq]
    rfl
  · rw [length_pack, length_pending]
    have hlt := nb_toNat_lt s
    split
    · next hnb => rw [hnb]; rfl
    · next hnb =>
      have hpos : s.nb.toNat ≠ 0 := fun h => hnb (BitVec.eq_of_toNat_eq h)
      omega

/-! ### `pack` is lossless -/

/-- The bits of a byte, most significant first (R44). -/
def byteBits (y : Byte) : BitString := (List.range 8).map fun m => y.getLsbD (7 - m)

/-- The byte of at most eight bits holds them, then zeros (R75). -/
theorem byteBits_packByte {b : BitString} (h : b.length ≤ 8) :
    byteBits (packByte b 0) = b ++ List.replicate (8 - b.length) false := by
  refine List.ext_getElem (by simp [byteBits]; omega) fun m hm _ => ?_
  have hm8 : m < 8 := by simpa [byteBits] using hm
  simp only [byteBits, List.getElem_map, List.getElem_range, packByte_bit b 0 m hm8]
  rw [Nat.mul_zero, Nat.zero_add]
  by_cases hmb : m < b.length
  · simp [hmb]
  · rw [List.getElem_append_right (by omega)]
    simp [hmb]

/-- The bytes of `pack` give the bit-string back, padded to a whole byte (R181 (b)). -/
theorem unpack_pack (b : BitString) :
    ∃ pad ≤ 7, (pack b).flatMap byteBits = b ++ List.replicate pad false := by
  by_cases hnil : b = []
  · exact ⟨0, by simp, by simp [hnil]⟩
  have hpos : 0 < b.length := List.length_pos_iff.2 hnil
  by_cases hshort : b.length < 8
  · refine ⟨8 - b.length, by omega, ?_⟩
    rw [pack_short b hnil hshort, List.flatMap_singleton, byteBits_packByte hshort.le]
  · obtain ⟨pad, hpad, hrest⟩ := unpack_pack (b.drop 8)
    have hgroup : (b.take 8).length = 8 := by
      rw [List.length_take]
      omega
    refine ⟨pad, hpad, ?_⟩
    calc (pack b).flatMap byteBits
      _ = (pack (b.take 8 ++ b.drop 8)).flatMap byteBits := by rw [List.take_append_drop]
      _ = byteBits (packByte (b.take 8) 0) ++ (pack (b.drop 8)).flatMap byteBits := by
        rw [pack_append_eight _ _ hgroup, List.flatMap_cons]
      _ = b.take 8 ++ (b.drop 8 ++ List.replicate pad false) := by
        rw [byteBits_packByte hgroup.le, hgroup, hrest]
        simp
      _ = b ++ List.replicate pad false := by rw [← List.append_assoc, List.take_append_drop]
termination_by b.length
decreasing_by
  rw [List.length_drop]
  omega

/-- Settles O53: the bits of the bytes are the bit-string, group of eight by group of eight. -/
theorem packIsLossless : Obligations.PackIsLossless := fun b => ⟨length_pack b, unpack_pack b⟩

/-! ### The stream of appended bits (R180) -/

/-- The bits `b` were appended since no bit was pending and OUT was `o`: the whole groups of eight have
left as bytes, the rest is pending, and the unused bits of ACC are zero. -/
structure Streamed (o : List Byte) (b : BitString) (s : State) : Prop where
  out_eq : s.out = o ++ pack (b.take (8 * (b.length / 8)))
  pending_eq : s.pending = b.drop (8 * (b.length / 8))
  acc_lt : s.acc.toNat < 2 ^ s.nb.toNat

theorem length_wholeGroups (b : BitString) :
    (b.take (8 * (b.length / 8))).length = 8 * (b.length / 8) := by
  rw [List.length_take]
  omega

/-- With no pending bits the stream is empty. -/
theorem streamed_nil {s : State} (hnb : s.nb = 0) (hacc : s.acc = 0) : Streamed s.out [] s where
  out_eq := by simp
  pending_eq := pending_of_nb_eq_zero hnb
  acc_lt := by simp [hacc]

section
variable {o : List Byte} {b : BitString} {s t : State}

/-- `append_bits` continues the stream (R175). -/
theorem Streamed.appendBits (h : Streamed o b s) (c : BitString) :
    Streamed o (b ++ c) (appendBits s c) := by
  obtain ⟨hout, hpending, hbound⟩ := appendBits_spec c s
  rw [h.pending_eq] at hout hpending
  set sent := b.take (8 * (b.length / 8)) with hsent
  set rest := b.drop (8 * (b.length / 8)) ++ c with hrest
  have hall : b ++ c = sent ++ rest := by
    rw [hsent, hrest, ← List.append_assoc, List.take_append_drop]
  have hsentLength : sent.length = 8 * (b.length / 8) := length_wholeGroups b
  have hcut : 8 * ((b ++ c).length / 8) = sent.length + 8 * (rest.length / 8) := by
    rw [hall, List.length_append, hsentLength]
    omega
  refine ⟨?_, ?_, hbound h.acc_lt⟩
  · rw [hcut, hall, List.take_length_add_append, pack_append _ _ ⟨_, hsentLength⟩,
      ← List.append_assoc, ← h.out_eq, hout]
  · rw [hcut, hall, List.drop_length_add_append, hpending]

/-- The stream is a matter of OUT, ACC and NB alone. -/
theorem Streamed.congr (h : Streamed o b s) (hout : t.out = s.out) (hacc : t.acc = s.acc)
    (hnb : t.nb = s.nb) : Streamed o b t := by
  have hpending : t.pending = s.pending := by rw [State.pending, hacc, hnb, State.pending]
  exact ⟨hout.trans h.out_eq, hpending.trans h.pending_eq, by simpa only [hacc, hnb] using h.acc_lt⟩

/-- FLUSH ends the stream: all its bits have left, packed (R178, R180). -/
theorem Streamed.flushPending (h : Streamed o b s) : (flushPending s).out = o ++ pack b ∧
    (flushPending s).nb = 0 ∧ (flushPending s).acc = 0 := by
  rw [flushPending_eq]
  refine ⟨?_, rfl, ?_⟩
  · change s.out ++ pack s.pending = _
    rw [h.out_eq, h.pending_eq, List.append_assoc, ← pack_append _ _ ⟨_, length_wholeGroups b⟩,
      List.take_append_drop]
  · have hacc := h.acc_lt
    change (if s.nb = 0 then s.acc else 0) = 0
    split
    · next hnb =>
      rw [hnb] at hacc
      exact BitVec.eq_of_toNat_eq (Nat.lt_one_iff.1 hacc)
    · rfl

end

/-- Only ENC and BITS append bits. -/
theorem appendedBits_eq_nil {i : Instr} (h : ¬ ((∃ v, i = .enc v) ∨ ∃ n pat, i = .bits n pat))
    (ct : CodeTable) : appendedBits ct i = [] := by
  cases i with
  | enc v => exact absurd (.inl ⟨v, rfl⟩) h
  | bits n pat => exact absurd (.inr ⟨n, pat, rfl⟩) h
  | _ => rfl

section
variable {i : Instr} {s t : State} (hi : i ∉ ([.rst, .ctbld, .flush, .bpclr] : List Instr))
  (h : exec i s = .next t)
include hi h

theorem exec_keeps_ct : t.ct = s.ct := by
  by_contra hct
  rcases (tableWriters i s t h).2 hct with rfl | rfl <;> simp at hi

/-- A command that appends no bits leaves the stream as it is (R22, R28). -/
theorem Streamed.exec_other {o : List Byte} {b : BitString} (hb : Streamed o b s)
    (hother : ¬ ((∃ v, i = .enc v) ∨ ∃ n pat, i = .bits n pat)) : Streamed o b t := by
  obtain ⟨hpending, hout, -⟩ := packerWriters i s t h
  have hkept : i ∉ ([.flush, .bpclr, .rst] : List Instr) := by
    simp only [List.mem_cons, not_or] at hi ⊢
    tauto
  refine hb.congr (by_contra fun hne => ?_) (by_contra fun hne => ?_) (by_contra fun hne => ?_)
  · exact (hout hne).elim (fun hflush => hkept (by simp [hflush])) hother
  · exact (hpending (.inl hne)).elim hkept hother
  · exact (hpending (.inr hne)).elim hkept hother

/-- A command that does not fault continues the stream by the bits it appends, if any (R180). -/
theorem Streamed.exec {o : List Byte} {b : BitString} (hb : Streamed o b s) (hs : s.fault = none)
    (ht : t.fault = none) : Streamed o (b ++ appendedBits s.ct i) t := by
  by_cases happends : (∃ v, i = .enc v) ∨ ∃ n pat, i = .bits n pat
  · obtain ⟨v, rfl⟩ | ⟨n, pat, rfl⟩ := happends
    · cases (exec_enc hs v).symm.trans h
      exact (hb.appendBits _).congr rfl rfl rfl
    · cases (exec_bits hs n pat).symm.trans h
      rcases appendRaw_cases Config.hardware n pat s with ⟨-, he⟩ | ⟨-, he⟩
      · simp [he, hs] at ht
      · rw [he]
        exact (hb.appendBits _).congr rfl rfl rfl
  · rw [appendedBits_eq_nil happends, List.append_nil]
    exact hb.exec_other hi h happends

end

/-! ### Runs -/

theorem execAll_cons {i : Instr} {s t : State} (h : exec i s = .next t) (is : List Instr) :
    execAll (i :: is) s = execAll is t := by
  rw [execAll, h]

theorem FaultFree.of_append {is js : List Instr} {s : State} (h : FaultFree (is ++ js) s) :
    FaultFree is s := by
  induction is generalizing s with
  | nil => exact faultFree_start h
  | cons i is ih => exact ⟨h.1, fun t ht => ih (h.2 t ht)⟩

/-- A fault-free run that leaves CT and the pending bits to ENC and BITS continues the stream by the
bits of its commands, in order (R180). -/
theorem Streamed.execAll {o : List Byte} {b : BitString} {is : List Instr} {s : State}
    (hb : Streamed o b s) (his : ∀ i ∈ is, i ∉ ([.rst, .ctbld, .flush, .bpclr] : List Instr))
    (hfree : FaultFree is s) :
    ∃ t, execAll is s = .next t ∧ Streamed o (b ++ is.flatMap (appendedBits s.ct)) t := by
  induction is generalizing s b with
  | nil => exact ⟨s, rfl, by simpa using hb⟩
  | cons i is ih =>
    obtain ⟨hi, his⟩ := List.forall_mem_cons.1 his
    obtain ⟨hs, hrest⟩ := hfree
    obtain ⟨u, hu⟩ := exec_total i s
    obtain ⟨t, hrun, ht⟩ := ih (hb.exec hi hu hs (faultFree_start (hrest u hu))) his (hrest u hu)
    refine ⟨t, (execAll_cons hu is).trans hrun, ?_⟩
    rwa [exec_keeps_ct hi hu, List.append_assoc] at ht

/-- Settles O54: the run streams its bits from an empty stream, and FLUSH ends the stream. -/
theorem packerEmitsPack : Obligations.PackerEmitsPack := by
  intro is s hnb hacc his hfree
  obtain ⟨u, hrun, hu⟩ := (streamed_nil hnb hacc).execAll his hfree.of_append
  have hflush : execAll [.flush] u = .next (respond 0 (flushPending u)) :=
    execAll_cons (exec_flush (faultFree_end hfree.of_append hrun)) []
  exact ⟨_, (execAll_append hrun).trans hflush, hu.flushPending⟩

/-! ### Runs of the packer's own commands -/

/-- FLUSH, ENC, and BITS with a legal operand: the commands that send bits out. -/
def IsPacking (i : Instr) : Prop :=
  i = .flush ∨ (∃ v, i = .enc v) ∨ ∃ n pat, n.toNat ≤ 16 ∧ i = .bits n pat

/-- They raise no fault (R176 to R178, "Faults"). -/
theorem IsPacking.no_cause {i : Instr} (hi : IsPacking i) (s : State) (k : FaultKind) :
    ¬ FaultCause i s k := by
  obtain rfl | ⟨v, rfl⟩ | ⟨n, pat, hn, rfl⟩ := hi
  · cases k <;> simp [FaultCauseIn, Instr.wfIn]
  · cases k <;> simp [FaultCauseIn, Instr.wfIn]
  · cases k <;> simp [FaultCauseIn, Instr.wfIn, hn]

theorem IsPacking.exec_fault {i : Instr} (hi : IsPacking i) {s t : State} (hs : s.fault = none)
    (h : exec i s = .next t) : t.fault = none := by
  obtain ⟨k, hcause, -, -⟩ | ⟨-, hfault, -, -⟩ := exec_running_cases i s t hs h
  · exact absurd hcause (hi.no_cause s k)
  · exact hfault

/-- They write neither FREQ, TREE nor CT (R13, R15, R19). -/
theorem IsPacking.exec_keeps {i : Instr} (hi : IsPacking i) {s t : State} (h : exec i s = .next t) :
    t.freq = s.freq ∧ t.tree = s.tree ∧ t.ct = s.ct := by
  obtain ⟨hfreq, hct⟩ := tableWriters i s t h
  obtain ⟨-, htree, -⟩ := listAndTreeWriters i s t h
  obtain rfl | ⟨v, rfl⟩ | ⟨n, pat, -, rfl⟩ := hi <;>
    exact ⟨by simpa using hfreq, by simpa using htree, by simpa using hct⟩

section
variable {is : List Instr} (his : ∀ i ∈ is, IsPacking i)
include his

theorem faultFree_of_packing {s : State} (hs : s.fault = none) : FaultFree is s := by
  induction is generalizing s with
  | nil => exact hs
  | cons i is ih =>
    obtain ⟨hi, his⟩ := List.forall_mem_cons.1 his
    exact ⟨hs, fun t ht => ih his (hi.exec_fault hs ht)⟩

theorem execAll_packing_keeps {s t : State} (h : execAll is s = .next t) :
    t.freq = s.freq ∧ t.tree = s.tree ∧ t.ct = s.ct := by
  induction is generalizing s with
  | nil => cases h; exact ⟨rfl, rfl, rfl⟩
  | cons i is ih =>
    obtain ⟨hi, his⟩ := List.forall_mem_cons.1 his
    obtain ⟨u, hu⟩ := exec_total i s
    obtain ⟨hfreq, htree, hct⟩ := ih his ((execAll_cons hu is).symm.trans h)
    obtain ⟨hfreq', htree', hct'⟩ := hi.exec_keeps hu
    exact ⟨hfreq.trans hfreq', htree.trans htree', hct.trans hct'⟩

/-- From no pending bits, ENC and BITS ended by FLUSH never fault, emit their bits packed, and leave
FREQ, TREE and CT (R180). -/
theorem execAll_packing_flush (hflush : .flush ∉ is) {s : State} (hs : s.fault = none)
    (hnb : s.nb = 0) (hacc : s.acc = 0) :
    ∃ t, execAll (is ++ [.flush]) s = .next t ∧ t.fault = none ∧ t.nb = 0 ∧
      (t.freq = s.freq ∧ t.tree = s.tree ∧ t.ct = s.ct) ∧
      t.out = s.out ++ pack (is.flatMap (appendedBits s.ct)) := by
  have hall : ∀ i ∈ is ++ [.flush], IsPacking i :=
    List.forall_mem_append.2 ⟨his, List.forall_mem_singleton.2 (.inl rfl)⟩
  have hfree := faultFree_of_packing hall hs
  have hallowed : ∀ i ∈ is, i ∉ ([.rst, .ctbld, .flush, .bpclr] : List Instr) := by
    intro i hi
    obtain rfl | ⟨v, rfl⟩ | ⟨n, pat, -, rfl⟩ := his i hi
    · exact absurd hi hflush
    · simp
    · simp
  obtain ⟨t, hrun, hout, hnb', -⟩ := packerEmitsPack is s hnb hacc hallowed hfree
  exact ⟨t, hrun, faultFree_end hfree hrun, hnb', execAll_packing_keeps hall hrun, hout⟩

end

/-! ### PACK -/

/-- `BITSTR` is BITS commands of at most 16 bits (R79). -/
theorem mem_expandBits {b : BitString} {i : Instr} (hi : i ∈ expandBits b) :
    ∃ n pat, n.toNat ≤ 16 ∧ i = .bits n pat := by
  obtain ⟨q, hq, rfl⟩ := List.mem_map.1 hi
  have hlen := (bitChunks_spec b.length b le_rfl).2 q hq
  refine ⟨_, _, ?_, rfl⟩
  rw [BitVec.toNat_ofNat]
  exact (Nat.mod_le _ _).trans hlen

theorem flush_not_mem_expandBits (b : BitString) : .flush ∉ expandBits b := fun h => by
  obtain ⟨n, pat, -, he⟩ := mem_expandBits h
  cases he

/-- Settles O55: after BPCLR the BITS commands of the chunks append the bit-string, which FLUSH ends. -/
theorem packPseudo : Obligations.PackPseudo := by
  intro b s hs
  obtain ⟨t, hrun, ht, hnb, -, hout⟩ := execAll_packing_flush
    (fun i hi => .inr (.inr (mem_expandBits hi))) (flush_not_mem_expandBits b)
    (s := respond 0 (s.setPending 0 0)) hs rfl rfl
  rw [expandBits_appended] at hout
  exact ⟨t, (execAll_cons (exec_bpclr hs) _).trans hrun, hout, ht, hnb⟩

/-! ### HUFF -/

/-- BUILD, CTBLD and BPCLR when the counts sum to less than `2^32`: the tree of the counts is latched,
its table is made, and no bits are pending (R146, R161, R179). -/
theorem execAll_build_ctbld_bpclr {s : State} (hs : s.fault = none)
    (hweight : (allSymbols.map fun a => (readSym s.freq a).toNat).sum < 2 ^ 32) :
    ∃ t, execAll [.build, .ctbld, .bpclr] s = .next t ∧ t.fault = none ∧ t.nb = 0 ∧ t.acc = 0 ∧
      t.freq = s.freq ∧ t.tree = builtTree s.freq ∧ t.ct = codeTableOf t.tree ∧ t.out = s.out := by
  rw [← totalWeight_baseList Config.hardware] at hweight
  obtain ⟨u, hbuild, hu, hfreq, htree, hout⟩ : ∃ u, exec .build s = .next u ∧ u.fault = none ∧
      u.freq = s.freq ∧ u.tree = builtTree s.freq ∧ u.out = s.out :=
    ⟨_, (exec_build hs).trans (congrArg _ (buildTree_of_exact (.inr hweight))), hs, rfl, rfl, rfl⟩
  have hbpclr := exec_bpclr (s := respond 0 (u.setCt (codeTableOf u.tree))) hu
  exact ⟨_, (execAll_cons hbuild _).trans ((execAll_cons (exec_ctbld hu) _).trans
    (execAll_cons hbpclr [])), hu, rfl, rfl, hfreq, htree, rfl, hout⟩

/-- Settles O56: the counts sum to at most the length of the text, so BUILD does not fault; then the
text is encoded with the table of its own tree. -/
theorem huffPseudo : Obligations.HuffPseudo := by
  intro text s hs hlen
  obtain ⟨s₁, hcount, hframe, hcounts, hsum⟩ := countsOfAText text s hs hlen
  have hs₁ : s₁.fault = none := by rw [hframe]; exact hs
  have hweight : (allSymbols.map fun a => (readSym s₁.freq a).toNat).sum < 2 ^ 32 :=
    hsum ▸ List.countP_le_length.trans_lt hlen
  obtain ⟨s₂, hbuild, hs₂, hnb₂, hacc₂, hfreq₂, htree₂, hct₂, hout₂⟩ :=
    execAll_build_ctbld_bpclr hs₁ hweight
  obtain ⟨t, henc, ht, hnb, ⟨hfreq, htree, hct⟩, hout⟩ :=
    execAll_packing_flush (is := text.map .enc)
      (List.forall_mem_map.2 fun v _ => .inr (.inl ⟨v, rfl⟩)) (by simp) hs₂ hnb₂ hacc₂
  have hrun : execAll (expand (.huff text)) s = .next t := calc
    _ = execAll ((.fclr :: text.map .cnt) ++
          ([.build, .ctbld, .bpclr] ++ (text.map .enc ++ [.flush]))) s := by simp [expand]
    _ = execAll ([.build, .ctbld, .bpclr] ++ (text.map .enc ++ [.flush])) s₁ := execAll_append hcount
    _ = execAll (text.map .enc ++ [.flush]) s₂ := execAll_append hbuild
    _ = .next t := henc
  have hout₁ : s₁.out = s.out := by rw [hframe]
  refine ⟨t, hrun, ht, hnb, ?_, ?_, ?_, ?_⟩
  · simpa only [hfreq, hfreq₂] using hcounts
  · rw [htree, htree₂, hfreq, hfreq₂, builtTree]
  · rw [hct, hct₂, htree]
  · rw [hct, hout, hout₂, hout₁, List.flatMap_map]
    rfl

end Sys2Proof.Machine

namespace Sys2Proof.Machine

/-! ## Faults (60_exceptions.md)

A word that does not decode is rejected, a word that decodes is executed (`stepRunsDecoded`). A command
that faults takes the fault by `raise` (`exec_eq_raise`); while halted every word but the four of R199
is refused. -/

section
variable {s : State} {w : Word} {rest : List HostEvent}

theorem step_of_illegal (hw : decode w = none) :
    step (s.setInput (.command w :: rest)) = .next (rejectWord w (s.setInput rest)) := by
  change acceptWord w (s.setInput rest) = _
  rw [acceptWord, hw]

theorem rejectWord_running (hs : s.fault = none) : rejectWord w s = raise .illegalCommand w s := by
  simp [rejectWord, hs]

theorem rejectWord_halted (hs : s.fault ≠ none) : rejectWord w s = refuseHalted w s :=
  if_pos (Option.isSome_iff_ne_none.2 hs)

end

/-- Settles O8: the word is rejected, and with no fault latched that takes the fault IllegalCommand. -/
theorem illegalWordFaults : Obligations.IllegalWordFaults := by
  intro s w rest hs hw
  have hrun : (s.setInput rest).fault = none := hs
  rw [step_of_illegal hw, rejectWord_running hrun, raise_eq hrun]
  rfl

/-! ### Faults of commands (R195, R198) -/

/-- A running command that ends with a fault did nothing but take it (R198). -/
theorem exec_eq_raise {i : Instr} {s t : State} {k : FaultKind} (hs : s.fault = none)
    (h : exec i s = .next t) (ht : t.fault = some k) : t = raise k (encode i) s := by
  obtain ⟨k', -, -, rfl⟩ | ⟨-, hnone, -, -⟩ := exec_running_cases i s t hs h
  · have hk : k' = k := by simpa [hs] using ht
    rw [hk]
  · simp [hnone] at ht

/-- Settles O11: an illegal word by `illegalWordFaults`; any other word is the word of the command that
takes the fault. -/
theorem faultsArePrecise : Obligations.FaultsArePrecise := by
  intro s t w rest k hs h ht
  cases hdecode : decode w with
  | none =>
    cases (illegalWordFaults s w rest hs hdecode).symm.trans h
    cases ht
    rfl
  | some i =>
    have hrun : (s.setInput rest).fault = none := hs
    have hexec : exec i (s.setInput rest) = .next t :=
      (stepRunsDecoded s w rest i hdecode).symm.trans h
    rw [exec_eq_raise hrun hexec ht, (encodeOfDecode w i hdecode).2, raise_eq hrun]
    rfl

/-- Settles O12: the causes of this hardware are those of its configuration. -/
theorem faultCauses : Obligations.FaultCauses := by
  intro i s hs
  obtain ⟨t, ht⟩ := exec_total i s
  exact ⟨t, ht, execIn_fault_eq_some_iff hs ((execIn_hardware i s).trans ht)⟩

/-- Settles O14: the fault changed only FAULT, which ERRACK sets back to none. -/
theorem acknowledgeRestores : Obligations.AcknowledgeRestores := by
  intro i s t k hs h ht
  rw [exec_eq_raise hs h ht, raise_eq hs, exec_errack]
  simp [respond_eq, acknowledge, State.setFault, hs]

/-! ### While halted (R199, R207, R210) -/

/-- The words of the four control commands (R199). -/
theorem word_of_control {w : Word} {i : Instr} (hdecode : decode w = some i)
    (hi : i.isControl = true) :
    w ∈ ([0x00000000, 0x01000000, 0x02000000, 0x03000000] : List Word) := by
  rw [← (encodeOfDecode w i hdecode).2]
  cases i with
  | nop | rst | stat | errack => simp [encode]
  | _ => cases hi

theorem decode_control_words : ∀ p ∈ ([(0x00000000, .nop), (0x01000000, .rst), (0x02000000, .stat),
    (0x03000000, .errack)] : List (Word × Instr)), decode p.1 = some p.2 := by
  decide

/-- Settles O9: a word outside the list is illegal or the word of a command that can be refused; the
four words of the list decode to their commands. -/
theorem haltedRefuses : Obligations.HaltedRefuses := by
  intro s w rest hs
  refine ⟨fun hw => ?_, fun i hi => stepRunsDecoded s w rest i (decode_control_words (w, i) hi)⟩
  have hhalted : (s.setInput rest).fault ≠ none := hs
  cases hdecode : decode w with
  | none =>
    rw [step_of_illegal hdecode, rejectWord_halted hhalted]
    rfl
  | some i =>
    have hi : i.isControl = false :=
      Bool.eq_false_of_not_eq_true fun hi => hw (word_of_control hdecode hi)
    rw [stepRunsDecoded s w rest i hdecode, exec_halted hhalted hi,
      (encodeOfDecode w i hdecode).2]
    rfl

/-- Settles O13: a refusal, NOP and STAT leave FAULT as it is; RST and ERRACK clear it. -/
theorem faultKeptUntilAcknowledged : Obligations.FaultKeptUntilAcknowledged := by
  intro s t w rest k hs h
  obtain ⟨hrefused, hcontrol⟩ := haltedRefuses s w rest (by simp [hs])
  by_cases hw : w ∈ ([0x00000000, 0x01000000, 0x02000000, 0x03000000] : List Word)
  · simp only [List.mem_cons, List.not_mem_nil, or_false] at hw
    rcases hw with rfl | rfl | rfl | rfl
    · cases (hcontrol .nop (by simp)).symm.trans h
      simp [hs]
    · cases (hcontrol .rst (by simp)).symm.trans h
      simp
    · cases (hcontrol .stat (by simp)).symm.trans h
      simp [hs]
    · cases (hcontrol .errack (by simp)).symm.trans h
      simp
  · cases (hrefused hw).symm.trans h
    exact ⟨fun _ _ => hs, by rintro (rfl | rfl) <;> simp at hw⟩

/-! ### The codes (R195, R70, R206) -/

theorem FaultKind.code_ne_zero (k : FaultKind) : k.code ≠ 0 := by
  cases k <;> decide

theorem faultReg_of_none {s : State} (hs : s.fault = none) : s.faultReg = 0 := by
  rw [State.faultReg, hs]

theorem faultReg_of_some {s : State} {k : FaultKind} (hs : s.fault = some k) :
    s.faultReg = k.code := by
  rw [State.faultReg, hs]

theorem faultO_iff (s : State) : s.faultO = true ↔ s.fault ≠ none := by
  cases hs : s.fault with
  | none => simp [State.faultO, faultReg_of_none hs]
  | some k => simpa [State.faultO, faultReg_of_some hs] using k.code_ne_zero

/-- Settles O15: the code tables are read off, and no fault has the code 0. -/
theorem faultOutput : Obligations.FaultOutput := by
  refine ⟨rfl, ⟨rfl, fun _ => rfl, rfl⟩, fun s =>
    ⟨faultReg_of_none, fun _ => faultReg_of_some, faultO_iff s, fun hrsp => ?_,
      fun earlier r hrsp => ?_⟩⟩
  · simp [State.rspPort, hrsp]
  · simp [State.rspPort, hrsp]

end Sys2Proof.Machine

namespace Sys2Proof.Machine

/-! ## The reset pin and RST (70_reset_and_hazards.md R225, R226) -/

/-- R225: a pulse of the `rst` pin is taken from the host's events and resets the state. -/
theorem step_resetPin (s : State) (rest : List HostEvent) :
    step (s.setInput (.resetPin :: rest)) = .next (resetState (s.setInput rest)) := rfl

/-- Settles O6: both reach `resetState`, and RST responds on top of it. -/
theorem rstLikeHardwareReset : Obligations.RstLikeHardwareReset := by
  intro s rest
  refine ⟨resetState (s.setInput rest), step_resetPin s rest, by simp, ?_⟩
  rw [exec_rst, respond_eq, resetState_rsp, State.setInput_rsp]

end Sys2Proof.Machine
